-- ==== Sys2Proof/Word.lean ====
section
/-! DEFINITION. The word types of the VORTEX-HASH core (00_scope.md R6, R8, R10): bytes, 64-bit state words, 32-bit
registers, and the 64-byte and 4-word arrays the block holds.  Nothing else stands here: every operation on
them is under Machine/. -/

namespace Sys2Proof

/-- An 8-bit value (R10). -/
abbrev Byte := BitVec 8

/-- A 64-bit word, `WORD_BITS = 64` (R6). -/
abbrev Word := BitVec 64

/-- A 32-bit register, command word or bus datum, `BUS_BITS = 32` (R6, R30). -/
abbrev Word32 := BitVec 32

/-- A 64-byte array, indexed by byte, `BLOCK = 64` (R6): a block, `PEND`, `KEY`, `DIN`, `CMPB`. -/
abbrev Block := Vector Byte 64

/-- Four 64-bit words, `STATE_WORDS = 4` (R6, R16). -/
abbrev Words := Vector Word 4

/-- `0^64` (R10). -/
abbrev zeroBlock : Block := Vector.replicate 64 0

end Sys2Proof
end

