-- ==== Sys2Proof/Config.lean ====
section
/-! DEFINITION. The implementation parameters of 00_scope.md R6 that are OPEN or have an alternative, as plain
data, and this hardware's values of them.  `K`, `IV` and `BASE` are OPEN (92_eei_decisions.md D4, D5): their values are opaque
constants, so no proof can see one (R7, log entries 1 and 2). -/

namespace Sys2Proof

/-- `LEN_UNIT` (R6, R80): the unit of the padding length field. -/
inductive LenUnit where
  | bytes
  | bits
  deriving DecidableEq, Repr

/-- The parameters of one block (R6).  A state carries them, and no step changes them (log entry 1): a
statement about every state is a statement about every value of the parameters. -/
structure Params where
  /-- Bits 63..1 of the multiplier `K`; bit 0 is 1, because `K` is odd (R7). -/
  kHigh : BitVec 63
  /-- `IV[0..3]` (R6). -/
  iv : Words
  /-- `BASE / 256`: the base address is a multiple of 256 (R43). -/
  baseIndex : Nat
  /-- `LEN_UNIT` (R80). -/
  lenUnit : LenUnit
  /-- `ALLOW_EMPTY_KEY` (R95). -/
  allowEmptyKey : Bool
  deriving DecidableEq, Repr

/-- The multiplier `K`, odd by construction (R7: `K[0:0] = 1`). -/
def Params.k (p : Params) : Word := p.kHigh ++ 1#1

/-- `BASE`, a multiple of 256 (R43). -/
def Params.base (p : Params) : Nat := 256 * p.baseIndex

/-- OPEN: bits 63..1 of this hardware's `K` (R7, D5); uninterpreted. -/
opaque Config.kHigh : BitVec 63

/-- OPEN: this hardware's `IV` (R7, D5); uninterpreted. -/
opaque Config.iv : Words

/-- OPEN: this hardware's `BASE / 256` (R43, D4); uninterpreted. -/
opaque Config.baseIndex : Nat

/-- The parameters of this hardware: `LEN_UNIT = BYTES` and `ALLOW_EMPTY_KEY = false` are decided (R6, D6, D8; log
entry 11). -/
def Config.params : Params where
  kHigh := Config.kHigh
  iv := Config.iv
  baseIndex := Config.baseIndex
  lenUnit := .bytes
  allowEmptyKey := false

end Sys2Proof
end

