-- ==== Sys2Proof/Syntax.lean ====
section
/-! DEFINITION. The nine commands of 30_encoding.md R63, one constructor per row of the opcode table. -/

namespace Sys2Proof

/-- BSEL, the selector of CT_EQ's operand `b` (R61, R103). -/
inductive OperandB where
  /-- BSEL = 0: the CMPB window. -/
  | cmpb
  /-- BSEL = 1: the digest. -/
  | digest
  deriving DecidableEq, Repr

/-- A command.  LA and LB are unsigned byte counts (R62); the range the 7-bit fields can hold is checked in
WellFormed. -/
inductive Instr where
  /-- NOP (R109). -/
  | nop
  /-- INIT (R85). -/
  | init
  /-- ABSORB LA (R86). -/
  | absorb (la : Nat)
  /-- FINAL (R87). -/
  | final
  /-- ZEROIZE (R107). -/
  | zeroize
  /-- KEY_SET LA (R95). -/
  | keySet (la : Nat)
  /-- KEY_FROM_DIGEST (R96). -/
  | keyFromDigest
  /-- HMAC_START (R97). -/
  | hmacStart
  /-- CT_EQ LA, LB, BSEL (R103). -/
  | ctEq (la lb : Nat) (b : OperandB)
  deriving DecidableEq, Repr

end Sys2Proof
end

