-- ==== Sys2Proof/Machine/State.lean ====
section
/-! DEFINITION. The state of the VORTEX-HASH core as plain data (10_state.md R16..R26), the host's bus accesses and the
turns of the three agents (00_scope.md R5), the reasons a step can stop, and the state after reset (70_reset_and_hazards.md
R124). -/

namespace Sys2Proof.Machine

/-- `ESTATE` (R20). -/
inductive EState where
  /-- 0: erased, no hash started. -/
  | idle
  /-- 1: initialised with IV, nothing absorbed. -/
  | fresh
  /-- 2: at least one ABSORB (or the HMAC inner pad) absorbed. -/
  | absorbing
  /-- 3: finalize done. -/
  | finalized
  deriving DecidableEq, Repr

/-- `MODE` (R21). -/
inductive Mode where
  /-- 0: an unkeyed hash. -/
  | plain
  /-- 1: an HMAC computation started by HMAC_START. -/
  | hmac
  deriving DecidableEq, Repr

/-- The error codes 1..7 (60_exceptions.md R111).  All but `busyViolation` are raised by commands. -/
inductive ErrCode where
  | alreadyFinalized
  | invalidConfig
  | notInitialized
  | invalidLength
  | illegalCmd
  | busyViolation
  | keyNotValid
  deriving DecidableEq, Repr

/-- What a bus access does (R12). -/
inductive BusOp where
  | read
  | write (v : Word32)
  deriving DecidableEq, Repr

/-- One host access as the bus delivers it: `MemRead(addr, size)` or `MemWrite(addr, size, v)` (R12, R46). -/
structure BusAccess where
  /-- The byte address on the host's bus. -/
  addr : Nat
  /-- The width in bytes; every legal access has 4 (R46). -/
  size : Nat
  op : BusOp
  deriving DecidableEq, Repr

/-- What the block answers to one access (R46, R49, R50). -/
inductive BusResp where
  /-- A read's data, without error. -/
  | data (v : Word32)
  /-- A write taken without a bus error (performed, ignored or dropped). -/
  | done
  /-- A bus error response; a read so answered returns this data (R46: 0). -/
  | busError (v : Word32)
  deriving DecidableEq, Repr

/-- One turn of one of the three agents of R5.  The order of turns is the interleaving the platform chooses; the spec
allows every one (93_implementation_defined.md items 6 and 10; log entry 3). -/
inductive Turn where
  /-- The host performs a bus access. -/
  | host (a : BusAccess)
  /-- The engine performs the pending command, if there is one (R65). -/
  | engine
  /-- The platform asserts reset (R124). -/
  | reset
  deriving DecidableEq, Repr

/-- Why the machine stops.  No command of the block ever stops it (R116). -/
inductive Fault where
  /-- Raised by a host access whose address lies outside the block's 256-byte window: the block's one address space holds no
  such address, and what lies there is the platform's (R43, R44; log entry 5).  SAFE: the run stops. -/
  | outsideWindow (addr : Nat)
  deriving DecidableEq, Repr

/-- Why an instruction has no meaning. -/
inductive Refusal where
  /-- Raised by an arm of exec whose instruction has no meaning yet; no arm does so.  SAFE: the run stops. -/
  | notModelled (mnemonic : String)
  deriving DecidableEq, Repr

/-- The whole state: the block's own (R16..R26), its fixed parameters (R6), and the model's two bus-side lists. -/
structure State where
  /-- `words[0..3]`, the state words (R16). -/
  words : Words
  /-- `PEND[0..63]`, the pending-byte buffer (R17). -/
  pend : Block
  /-- `PLEN`, the count of valid pending bytes, 0..63 between commands (R17; log entry 6). -/
  plen : Fin 64
  /-- `LEN`, the 64-bit total-length counter (R18). -/
  len : Word
  /-- `MLEN`, `LEN` at the start of the most recent finalize (R19). -/
  mlen : Word
  /-- `ESTATE` (R20). -/
  estate : EState
  /-- `MODE` (R21). -/
  mode : Mode
  /-- `KEY[0..63]`, the HMAC key block (R22). -/
  key : Block
  /-- `KEY_VALID` (R22). -/
  keyValid : Bool
  /-- `CMP_EQ` (R23). -/
  cmpEq : Bool
  /-- `CMP_VALID` (R23). -/
  cmpValid : Bool
  /-- `ERR[6:0]`, the sticky error bits (R24). -/
  err : BitVec 7
  /-- `LAST_ERR`, the code of the most recently completed command (R24). -/
  lastErr : BitVec 4
  /-- `BUSY`: a command is accepted and not yet performed (R25). -/
  busy : Bool
  /-- `CMDLATCH`, the accepted command word (R25). -/
  cmdLatch : Word32
  /-- `DIN[0..63]` (R26). -/
  din : Block
  /-- `CMPB[0..63]` (R26). -/
  cmpb : Block
  /-- The block's parameters (R6), fixed: no step changes them (log entry 1). -/
  params : Params
  /-- MODEL'S OWN: the turns still to come, next first (R5, R51, R53; log entry 3). -/
  turns : List Turn
  /-- MODEL'S OWN: the block's answers to the host's accesses, newest first (R46, R49; log entry 4). -/
  resps : List BusResp
  deriving DecidableEq, Repr

/-- The state right after reset (R124): every piece of state 0, no command pending, no turn to come. -/
def State.reset : State where
  words := Vector.replicate 4 0
  pend := zeroBlock
  plen := 0
  len := 0
  mlen := 0
  estate := .idle
  mode := .plain
  key := zeroBlock
  keyValid := false
  cmpEq := false
  cmpValid := false
  err := 0
  lastErr := 0
  busy := false
  cmdLatch := 0
  din := zeroBlock
  cmpb := zeroBlock
  params := Config.params
  turns := []
  resps := []

end Sys2Proof.Machine
end

