-- ==== Sys2Proof/Machine/Flags.lean ====
section
/-! DEFINITION. The status flags: the codes of ESTATE, MODE and the errors, the sticky ERR bits, and the STATUS register's
layout (10_state.md R20, R21, R29, R32, R33; 60_exceptions.md R111). -/

namespace Sys2Proof.Machine

/-- The 2-bit value of `ESTATE` (R20). -/
def EState.code : EState → BitVec 2
  | .idle => 0
  | .fresh => 1
  | .absorbing => 2
  | .finalized => 3

/-- The bit of `MODE` (R21). -/
def Mode.code : Mode → BitVec 1
  | .plain => 0
  | .hmac => 1

/-- The number of an error (R111). -/
def ErrCode.code : ErrCode → BitVec 4
  | .alreadyFinalized => 1
  | .invalidConfig => 2
  | .notInitialized => 3
  | .invalidLength => 4
  | .illegalCmd => 5
  | .busyViolation => 6
  | .keyNotValid => 7

/-- The sticky bit of an error, `ERR[c-1]` for code `c` (R24, R33). -/
def ErrCode.errBit (c : ErrCode) : BitVec 7 := 1#7 <<< (c.code.toNat - 1)

/-- `ERR_ANY`: 1 iff `ERR[6:0] != 0` (R32). -/
def errAny (s : State) : Bool := s.err != 0

/-- The STATUS register (R32), from bit 31 down to bit 0.  A command commits in one step, so while BUSY = 1 every field
here is the one from before the pending command. -/
def statusWord (s : State) : Word32 :=
  0#12                                  -- 31:20 reserved
    ++ s.lastErr                        -- 19:16 LAST_ERR
    ++ 0#1                              -- 15 reserved
    ++ BitVec.ofNat 7 s.plen.val        -- 14:8 PLEN
    ++ BitVec.ofBool (errAny s)         -- 7 ERR_ANY
    ++ BitVec.ofBool s.cmpValid         -- 6 CMP_VALID
    ++ BitVec.ofBool s.cmpEq            -- 5 CMP_EQ
    ++ BitVec.ofBool s.keyValid         -- 4 KEY_VALID
    ++ s.mode.code                      -- 3 MODE
    ++ s.estate.code                    -- 2:1 ESTATE
    ++ BitVec.ofBool s.busy             -- 0 BUSY

/-- The ERR register as read: bits 6:0, the rest 0 (R33). -/
def errWord (s : State) : Word32 := s.err.zeroExtend 32

/-- A write of `v` to ERR: write 1 to clear, bits 31:7 of `v` ignored (R33). -/
def clearErr (v : Word32) (s : State) : State :=
  { s with err := s.err &&& ~~~(v.extractLsb' 0 7) }

end Sys2Proof.Machine
end

