-- ==== Sys2Proof/Machine/Ops.lean ====
section
/-! DEFINITION. The shared operations: byte strings and byte orders (00_scope.md R10, 20_memory.md R47, R48), the digest bytes
(41_stream.md R83), and how a command ends: without error, or by raising one (30_encoding.md R65; 60_exceptions.md R112).  The
block has no traps and no return from one (R116, R117): raising an error IS its exception, and the host's write to ERR
(Flags.lean, `clearErr`) is what takes the place of a return. -/

namespace Sys2Proof.Machine

/-! ## Byte strings and byte orders -/

/-- A byte string placed at the start of a 64-byte array, zeros after it: `bs ‖ 0^(64 - |bs|)` (R10, R93).  Bytes past 64
are not taken. -/
def blockOf (bs : List Byte) : Block := Vector.ofFn fun k => bs.getD k.val 0

/-- `LE64(b[8k..8k+8))`: eight bytes of a block as a little-endian word (R10, R69). -/
def leWord (b : Block) (k : Fin 8) : Word :=
  b[8 * k.val + 7] ++ b[8 * k.val + 6] ++ b[8 * k.val + 5] ++ b[8 * k.val + 4]
    ++ b[8 * k.val + 3] ++ b[8 * k.val + 2] ++ b[8 * k.val + 1] ++ b[8 * k.val]

/-- `LE64bytes(v)`: byte 0 is the least significant (R10). -/
def le64Bytes (v : Word) : List Byte := (List.range 8).map fun t => v.extractLsb' (8 * t) 8

/-- `BE64bytes(v)`: byte 0 is the most significant (R10). -/
def be64Bytes (v : Word) : List Byte := (List.range 8).map fun t => v.extractLsb' (56 - 8 * t) 8

/-- Register `m` of a 64-byte window: byte `4m + t` in bits `[8t+7:8t]` (R35, R47). -/
def laneWord (b : Block) (m : Fin 16) : Word32 :=
  b[4 * m.val + 3] ++ b[4 * m.val + 2] ++ b[4 * m.val + 1] ++ b[4 * m.val]

/-- A write of `v` to register `m` of a 64-byte window: byte `4m + t` becomes `v[8t+7:8t]` (R35). -/
def setLane (b : Block) (m : Fin 16) (v : Word32) : Block :=
  Vector.ofFn fun k => if k.val / 4 = m.val then v.extractLsb' (8 * (k.val % 4)) 8 else b[k]

/-- `digest_bytes()`: the little-endian serialization of the four state words, 32 bytes (R83). -/
def digestBytes (w : Words) : List Byte :=
  le64Bytes w[0] ++ le64Bytes w[1] ++ le64Bytes w[2] ++ le64Bytes w[3]

/-! ## How a command ends -/

/-- A command that completes without error: `LAST_ERR <- 0`, `BUSY <- 0`, ERR unchanged (R65, R112).  CMDLATCH keeps
its word (log entry 7). -/
def complete (s : State) : State := { s with lastErr := 0, busy := false }

/-- A command that raises `CmdError(c)`: the state from before it, then `ERR[c-1] <- 1`, `LAST_ERR <- c`, `BUSY <- 0`
(R65, R112).  Every check of a command stands before its first write, so `s` IS the state from before it. -/
def raiseError (c : ErrCode) (s : State) : State :=
  { s with err := s.err ||| c.errBit, lastErr := c.code, busy := false }

/-- A CT_EQ that raises any error also clears CMP_EQ and CMP_VALID (R103, R112). -/
def raiseCompareError (c : ErrCode) (s : State) : State :=
  { raiseError c s with cmpEq := false, cmpValid := false }

/-- The first of a command's checks that fails, in the order they are listed, which is R113's order. -/
def firstError : List (Bool × ErrCode) → Option ErrCode
  | [] => none
  | (failed, c) :: rest => if failed then some c else firstError rest

/-- The end of R65's step for a command with the given checks and effect: the first failing check is raised and nothing else
happens, or the effect happens and the command completes. -/
def runCommand (checks : List (Bool × ErrCode)) (effect : State → State) (s : State) :
    Host.Outcome State Fault Refusal :=
  match firstError checks with
  | none => .next (complete (effect s))
  | some c => .next (raiseError c s)

/-- The same for CT_EQ, whose errors also clear the comparison flags (R103, R112). -/
def runCompare (checks : List (Bool × ErrCode)) (effect : State → State) (s : State) :
    Host.Outcome State Fault Refusal :=
  match firstError checks with
  | none => .next (complete (effect s))
  | some c => .next (raiseCompareError c s)

end Sys2Proof.Machine
end

