-- ==== Sys2Proof/Machine/Bus.lean ====
section
/-! DEFINITION. The register map and the host's bus accesses (10_state.md R30..R37; 20_memory.md R43..R53;
70_reset_and_hazards.md R128, R129). -/

namespace Sys2Proof.Machine

/-- The registers of the window (R30). -/
inductive Reg where
  | cmd
  | status
  | err
  | lenLo
  | lenHi
  | mlenLo
  | mlenHi
  | din (m : Fin 16)
  | cmpb (m : Fin 16)
  | digest (m : Fin 8)
  /-- A reserved offset (R37). -/
  | reserved
  deriving DecidableEq, Repr

/-- The size of the window, 256 bytes (R30, R43). -/
def windowSize : Nat := 256

/-- The register at a 4-byte-aligned offset of the window (R30); every offset the map does not name is reserved. -/
def regAt (off : Nat) : Reg :=
  if off = 0x00 then .cmd
  else if off = 0x04 then .status
  else if off = 0x08 then .err
  else if off = 0x10 then .lenLo
  else if off = 0x14 then .lenHi
  else if off = 0x18 then .mlenLo
  else if off = 0x1C then .mlenHi
  else if 0x40 ≤ off ∧ off < 0x80 then .din (Fin.ofNat 16 ((off - 0x40) / 4))
  else if 0x80 ≤ off ∧ off < 0xC0 then .cmpb (Fin.ofNat 16 ((off - 0x80) / 4))
  else if 0xC0 ≤ off ∧ off < 0xE0 then .digest (Fin.ofNat 8 ((off - 0xC0) / 4))
  else .reserved

/-- The digest can be read: BUSY = 0 and ESTATE = FINALIZED (R36). -/
def digestReadable (s : State) : Bool := !s.busy && decide (s.estate = .finalized)

/-- A register that reads 0 while BUSY = 1 (R34, R129). -/
def hiddenWhileBusy (s : State) (v : Word32) : Word32 := if s.busy then 0 else v

/-- What a read of a register returns (R49). -/
def readReg (s : State) : Reg → Word32
  | .cmd => 0
  | .status => statusWord s
  | .err => errWord s
  | .lenLo => hiddenWhileBusy s (s.len.extractLsb' 0 32)
  | .lenHi => hiddenWhileBusy s (s.len.extractLsb' 32 32)
  | .mlenLo => hiddenWhileBusy s (s.mlen.extractLsb' 0 32)
  | .mlenHi => hiddenWhileBusy s (s.mlen.extractLsb' 32 32)
  | .din m => laneWord s.din m
  | .cmpb m => laneWord s.cmpb m
  | .digest m => if digestReadable s then laneWord (blockOf (digestBytes s.words)) (m.castLE (by decide)) else 0
  | .reserved => 0

/-- The byte at offset `off` of the window: bits `[8t+7:8t]` of the register at the aligned offset below it (R47). -/
def windowByte (s : State) (off : Nat) : Byte :=
  (readReg s (regAt (4 * (off / 4)))).extractLsb' (8 * (off % 4)) 8

/-- A dropped write: `ERR[5] <- 1` and nothing else (R128). -/
def busyViolation (s : State) : State := { s with err := s.err ||| ErrCode.busyViolation.errBit }

/-- What a write of `v` to a register does (R50). -/
def writeReg (s : State) (r : Reg) (v : Word32) : State :=
  match r with
  | .cmd => if s.busy then busyViolation s else { s with cmdLatch := v, busy := true }
  | .err => clearErr v s
  | .din m => if s.busy then busyViolation s else { s with din := setLane s.din m v }
  | .cmpb m => if s.busy then busyViolation s else { s with cmpb := setLane s.cmpb m v }
  | .status | .lenLo | .lenHi | .mlenLo | .mlenHi | .digest _ | .reserved => s

/-- The block answers an access: one more response, newest first. -/
def respond (r : BusResp) (s : State) : State := { s with resps := r :: s.resps }

/-- The access is legal: 32 bits wide at a 4-byte-aligned address (R46). -/
def accessLegal (a : BusAccess) : Bool := a.size == 4 && a.addr % 4 == 0

/-- The access is to this block: its address lies in the window (R43; log entries 5 and 10). -/
def inWindow (p : Params) (addr : Nat) : Bool := decide (p.base ≤ addr) && decide (addr < p.base + windowSize)

/-- A legal access at offset `off` of the window (R49, R50).  An ignored or dropped write is answered like any other (log
entry 9). -/
def performAccess (off : Nat) (op : BusOp) (s : State) : State :=
  match op with
  | .read => respond (.data (readReg s (regAt off))) s
  | .write v => respond .done (writeReg s (regAt off) v)

/-- One host access: performed, answered with a bus error that has no effect on the block (R46), or outside the window. -/
def busAccess (a : BusAccess) (s : State) : Host.Outcome State Fault Refusal :=
  if inWindow s.params a.addr then
    if accessLegal a then .next (performAccess (a.addr - s.params.base) a.op s)
    else .next (respond (.busError 0) s)
  else .fault (.outsideWindow a.addr)

end Sys2Proof.Machine
end

