-- ==== Sys2Proof/WellFormed.lean ====
section
/-! DEFINITION. Which commands have an encoding: each length fits its 7-bit field (30_encoding.md R61, R66: "A command
mnemonic with an operand out of its 7-bit field is a syntax error, not an encoding"). -/

namespace Sys2Proof

/-- A byte count that fits a 7-bit length field, 0..127 (R61). -/
def fitsLengthField (n : Nat) : Bool := n < 128

/-- The command has an encoding (R61, R66).  A length above its command's LIMIT (64 or 32) is well formed: it decodes and
then fails with INVALID_LENGTH (R62, R63). -/
def Instr.wellFormed : Instr → Bool
  | .nop => true
  | .init => true
  | .absorb la => fitsLengthField la
  | .final => true
  | .zeroize => true
  | .keySet la => fitsLengthField la
  | .keyFromDigest => true
  | .hmacStart => true
  | .ctEq la lb _ => fitsLengthField la && fitsLengthField lb

end Sys2Proof
end

