-- ==== Sys2Proof/Decode.lean ====
section
/-! DEFINITION. Command words: their fields (30_encoding.md R61), the decoder (R60, R63, R64: total on every 32-bit
value), the encoder, and the opcode table's match and mask rows (R63). -/

namespace Sys2Proof

/-! ## The fields of a command word `v` (R61) -/

/-- `OP = v[7:0]`. -/
def cmdOp (v : Word32) : BitVec 8 := v.extractLsb' 0 8
/-- `LA = v[14:8]`. -/
def cmdLA (v : Word32) : BitVec 7 := v.extractLsb' 8 7
/-- `LB = v[22:16]`. -/
def cmdLB (v : Word32) : BitVec 7 := v.extractLsb' 16 7
/-- `BSEL = v[23:23]`. -/
def cmdBsel (v : Word32) : BitVec 1 := v.extractLsb' 23 1
/-- `RSV = v[15:15]` concatenated with `v[31:24]`. -/
def cmdRsv (v : Word32) : BitVec 9 := v.extractLsb' 15 1 ++ v.extractLsb' 24 8

/-! ## The opcode map (R63) -/

/-- Why a word is illegal (R64).  Every reason raises the same error, ILLEGAL_CMD. -/
inductive IllegalCmd where
  /-- OP is not in R63. -/
  | unassignedOpcode
  /-- `RSV != 0`. -/
  | reservedBits
  /-- A field the opcode marks "0" is nonzero. -/
  | unusedField
  deriving DecidableEq, Repr

/-- OP of each command (R63). -/
def Instr.opcode : Instr → BitVec 8
  | .nop => 0x00
  | .init => 0x01
  | .absorb _ => 0x02
  | .final => 0x03
  | .zeroize => 0x04
  | .keySet _ => 0x10
  | .keyFromDigest => 0x11
  | .hmacStart => 0x12
  | .ctEq _ _ _ => 0x20

/-- BSEL as an operand selector (R61). -/
def operandBOfBsel (b : BitVec 1) : OperandB := if b = 1 then .digest else .cmpb

/-- An operand selector as BSEL (R61). -/
def OperandB.bsel : OperandB → BitVec 1
  | .cmpb => 0
  | .digest => 1

/-- A command whose LA, LB and BSEL must all be zero (R63). -/
def decodePlain (v : Word32) (i : Instr) : Except IllegalCmd Instr :=
  if cmdLA v = 0 ∧ cmdLB v = 0 ∧ cmdBsel v = 0 then .ok i else .error .unusedField

/-- A command with a length A, whose LB and BSEL must be zero (R63). -/
def decodeLA (v : Word32) (i : Nat → Instr) : Except IllegalCmd Instr :=
  if cmdLB v = 0 ∧ cmdBsel v = 0 then .ok (i (cmdLA v).toNat) else .error .unusedField

/-- The decoder: every 32-bit value is one of R63's commands or illegal (R60, R64). -/
def decode (v : Word32) : Except IllegalCmd Instr :=
  if cmdRsv v ≠ 0 then .error .reservedBits
  else if cmdOp v = 0x00 then decodePlain v .nop
  else if cmdOp v = 0x01 then decodePlain v .init
  else if cmdOp v = 0x02 then decodeLA v .absorb
  else if cmdOp v = 0x03 then decodePlain v .final
  else if cmdOp v = 0x04 then decodePlain v .zeroize
  else if cmdOp v = 0x10 then decodeLA v .keySet
  else if cmdOp v = 0x11 then decodePlain v .keyFromDigest
  else if cmdOp v = 0x12 then decodePlain v .hmacStart
  else if cmdOp v = 0x20 then
    .ok (.ctEq (cmdLA v).toNat (cmdLB v).toNat (operandBOfBsel (cmdBsel v)))
  else .error .unassignedOpcode

/-- The command word with the given fields, its reserved bits 31:24 and 15 zero (R61). -/
def assemble (op : BitVec 8) (la lb : BitVec 7) (bsel : BitVec 1) : Word32 :=
  0#8 ++ bsel ++ lb ++ 0#1 ++ la ++ op

/-- The command word of a command (R61, R63, R66).  A length that does not fit its field (ill formed) is cut to 7 bits. -/
def encode : Instr → Word32
  | .nop => assemble 0x00 0 0 0
  | .init => assemble 0x01 0 0 0
  | .absorb la => assemble 0x02 (BitVec.ofNat 7 la) 0 0
  | .final => assemble 0x03 0 0 0
  | .zeroize => assemble 0x04 0 0 0
  | .keySet la => assemble 0x10 (BitVec.ofNat 7 la) 0 0
  | .keyFromDigest => assemble 0x11 0 0 0
  | .hmacStart => assemble 0x12 0 0 0
  | .ctEq la lb b => assemble 0x20 (BitVec.ofNat 7 la) (BitVec.ofNat 7 lb) b.bsel

/-! ## The opcode table (R63, opcode_table.json) -/

/-- A row of the opcode table: a word decodes to the row when `(v AND mask) = match` (R63). -/
structure OpcodeRow where
  opcode : BitVec 8
  matchBits : Word32
  maskBits : Word32
  deriving DecidableEq, Repr

/-- The rows of opcode_table.json, in its order. -/
def opcodeTable : List OpcodeRow := [
  ⟨0x00, 0x00000000, 0xFFFFFFFF⟩,
  ⟨0x01, 0x00000001, 0xFFFFFFFF⟩,
  ⟨0x02, 0x00000002, 0xFFFF80FF⟩,
  ⟨0x03, 0x00000003, 0xFFFFFFFF⟩,
  ⟨0x04, 0x00000004, 0xFFFFFFFF⟩,
  ⟨0x10, 0x00000010, 0xFFFF80FF⟩,
  ⟨0x11, 0x00000011, 0xFFFFFFFF⟩,
  ⟨0x12, 0x00000012, 0xFFFFFFFF⟩,
  ⟨0x20, 0x00000020, 0xFF0080FF⟩]

/-- The word decodes to the row (R63). -/
def OpcodeRow.accepts (row : OpcodeRow) (v : Word32) : Bool := v &&& row.maskBits == row.matchBits

/-! ## The host's reading of a table word -/

/-- The command the decoder reads from a word given in `nbits` bits; every bit above them is 0. -/
def decodeTableWord (nbits w : Nat) : Option Instr :=
  (decode (BitVec.ofNat 32 (w % 2 ^ nbits))).toOption

end Sys2Proof
end

