-- ==== Sys2Proof/Machine/Operands.lean ====
section
/-! DEFINITION. The operand forms (30_encoding.md R62; 10_state.md R26): the first LA bytes of DIN, the whole DIN window, and
CT_EQ's operand `b` by BSEL (43_compare.md R103). -/

namespace Sys2Proof.Machine

/-- `DIN[0..LA)`, the data of ABSORB and KEY_SET (R86, R95).  Lengths above 64 never get here (INVALID_LENGTH). -/
def dinBytes (la : Nat) (s : State) : List Byte := s.din.toList.take la

/-- CT_EQ's operand `A = DIN[0..64)` (R103). -/
def compareA (s : State) : Block := s.din

/-- CT_EQ's operand `B`: `CMPB[0..64)` if BSEL = 0, `digest_bytes() ‖ 0^32` if BSEL = 1 (R103). -/
def compareB : OperandB → State → Block
  | .cmpb, s => s.cmpb
  | .digest, s => blockOf (digestBytes s.words)

end Sys2Proof.Machine
end

