-- ==== Sys2Proof/Machine/Compare.lean ====
section
/-! DEFINITION. The constant-time comparator (43_compare.md R102..R104). -/

namespace Sys2Proof.Machine

/-- `CT_MAX = 64`, the size of both operands and the most bytes an operand may have (R102, R103). -/
def ctMax : Nat := 64

/-- The longest digest operand, 32 bytes (R103). -/
def digestLen : Nat := 32

/-- The positions every comparison visits, all 64, in order, whatever the operands and lengths (R102, R104). -/
def ctPositions : List (Fin 64) := List.finRange 64

/-- The accumulator after one position: `acc OR ((A[k] XOR B[k]) AND mask)`, the mask 0xFF below `n` and 0x00 from `n` on
(R102). -/
def ctStep (a b : Block) (n : Nat) (acc : Byte) (k : Fin 64) : Byte :=
  acc ||| ((a[k] ^^^ b[k]) &&& (if k.val < n then 0xFF else 0x00))

/-- `ct_eq_core(A, B, la, lb)` (R102). -/
def ctEqCore (a b : Block) (la lb : Nat) : Bool :=
  ctPositions.foldl (ctStep a b (min la lb)) 0x00 == 0x00 && la == lb

/-- CT_EQ's checks (R103), in R113's order. -/
def ctEqChecks (la lb : Nat) (b : OperandB) (s : State) : List (Bool × ErrCode) := [
  (decide (la > ctMax) || decide (lb > ctMax), .invalidLength),
  (decide (b = .digest) && decide (lb > digestLen), .invalidLength),
  (decide (b = .digest) && decide (s.estate ≠ .finalized), .invalidConfig)]

/-- `CMP_EQ <- ct_eq_core(...)`, `CMP_VALID <- 1` (R103). -/
def ctEqEffect (la lb : Nat) (b : OperandB) (s : State) : State :=
  { s with cmpEq := ctEqCore (compareA s) (compareB b s) la lb, cmpValid := true }

/-- CT_EQ LA, LB, BSEL (R103). -/
def execCtEq (la lb : Nat) (b : OperandB) (s : State) : Host.Outcome State Fault Refusal :=
  runCompare (ctEqChecks la lb b s) (ctEqEffect la lb b) s

end Sys2Proof.Machine
end

