-- ==== Sys2Proof/Machine/Lifecycle.lean ====
section
/-! DEFINITION. ZEROIZE and NOP (44_lifecycle.md R107, R109), and the reset event (70_reset_and_hazards.md R124). -/

namespace Sys2Proof.Machine

/-- ZEROIZE's effect (R107): every byte of hash state, key material and operand data erased; ERR kept. -/
def zeroizeEffect (s : State) : State :=
  { s with
    words := Vector.replicate 4 0
    pend := zeroBlock
    plen := 0
    len := 0
    mlen := 0
    key := zeroBlock
    keyValid := false
    din := zeroBlock
    cmpb := zeroBlock
    cmpEq := false
    cmpValid := false
    estate := .idle
    mode := .plain }

/-- ZEROIZE (R107): succeeds in every ESTATE and MODE. -/
def execZeroize (s : State) : Host.Outcome State Fault Refusal := runCommand [] zeroizeEffect s

/-- NOP (R109): the command only completes. -/
def execNop (s : State) : Host.Outcome State Fault Refusal := runCommand [] id s

/-- The reset event (R124): every piece of the block's state at its reset value, a pending command discarded.  The parameters
are fixed in the block (R126), and the bus-side lists are not the block's. -/
def resetBlock (s : State) : State :=
  { State.reset with params := s.params, turns := s.turns, resps := s.resps }

end Sys2Proof.Machine
end

