-- ==== Sys2Proof/Machine/Compression.lean ====
section
/-! DEFINITION. The compression function (40_compression.md R68..R74). -/

namespace Sys2Proof.Machine

/-- `ROUNDS = 8` (R73). -/
def rounds : Nat := 8

/-- `ROT = 13` (R73). -/
def rotation : Nat := 13

/-- `rotl64(x, n) = ((x << n) OR (x >> (64 - n)))[63:0]` (R9). -/
def rotl64 (x : Word) (n : Nat) : Word := x <<< n ||| x >>> (64 - n)

/-- `j = (i + r) mod 4` (R70, R72). -/
def mixIndex (r : Nat) (i : Fin 4) : Fin 4 := ⟨(i.val + r) % 4, Nat.mod_lt _ (by decide)⟩

/-- `w[k] = LE64(blk[8k..8k+8))` (R69). -/
def messageWords (blk : Block) : Vector Word 8 := Vector.ofFn (leWord blk)

/-- Step `i` of round `r`, in place (R70): the XOR reads `s[j]` after the addition has been written, so for `j = i` it is
the sum itself (R71). -/
def mixStep (k : Word) (w : Vector Word 8) (r : Nat) (s : Words) (i : Fin 4) : Words :=
  let j := mixIndex r i
  let s := s.set i (s[i] + w[2 * j.val] + w[2 * j.val + 1])
  let s := s.set i (rotl64 s[i] rotation ^^^ s[j])
  s.set i (s[i] * k)

/-- Round `r`: the steps `i = 0, 1, 2, 3` in this order (R70). -/
def mixRound (k : Word) (w : Vector Word 8) (s : Words) (r : Nat) : Words :=
  (List.finRange 4).foldl (mixStep k w r) s

/-- `compress(s, blk)` (R68): eight rounds, no feed-forward and no output transform (R74). -/
def compress (k : Word) (s : Words) (blk : Block) : Words :=
  (List.range rounds).foldl (mixRound k (messageWords blk)) s

end Sys2Proof.Machine
end

