-- ==== Sys2Proof/Machine/Streaming.lean ====
section
/-! DEFINITION. The streaming engine's primitives `update`, `pad`, `finalize` (41_stream.md R79..R82) and the digest
function `H` they compute (R84). -/

namespace Sys2Proof.Machine

/-- The part of the state that absorbing a byte changes: `words`, `PEND` and `PLEN` (R79). -/
structure Absorber where
  words : Words
  pend : Block
  plen : Fin 64
  deriving DecidableEq, Repr

/-- One byte of `update`'s loop (R79): store it at `PEND[PLEN]`, and compress and clear the buffer when it is full. -/
def feedByte (k : Word) (e : Absorber) (b : Byte) : Absorber :=
  let pend := e.pend.set e.plen b
  if h : e.plen.val + 1 < 64 then
    { e with pend := pend, plen := ⟨e.plen.val + 1, h⟩ }
  else
    { words := compress k e.words pend, pend := zeroBlock, plen := 0 }

/-- `update`'s loop over the bytes, in order (R79). -/
def feed (k : Word) (e : Absorber) (data : List Byte) : Absorber := data.foldl (feedByte k) e

/-- The absorber of a state. -/
def State.absorber (s : State) : Absorber := ⟨s.words, s.pend, s.plen⟩

/-- A state with another absorber. -/
def State.withAbsorber (s : State) (e : Absorber) : State :=
  { s with words := e.words, pend := e.pend, plen := e.plen }

/-- FRESH becomes ABSORBING, every other ESTATE stays (R79). -/
def EState.absorbed : EState → EState
  | .fresh => .absorbing
  | e => e

/-- `update(data)` (R79): nothing if FINALIZED; else absorb the bytes, count them modulo 2^64, leave FRESH. -/
def update (data : List Byte) (s : State) : State :=
  if s.estate = .finalized then s
  else
    { s.withAbsorber (feed s.params.k s.absorber data) with
      len := s.len + BitVec.ofNat 64 data.length
      estate := s.estate.absorbed }

/-- The padding length field: `L`, or `8L mod 2^64` if `LEN_UNIT = BITS` (R80). -/
def lengthField : LenUnit → Word → Word
  | .bytes, l => l
  | .bits, l => 8 * l

/-- `pad(L, p) = 0x80 ‖ 0^z ‖ BE64bytes(f)` with `z = (55 - p) mod 64` (R80), for `p <= 63` pending bytes.  The integer
`(55 - p) mod 64` is written `(119 - p) % 64` over the naturals. -/
def pad (u : LenUnit) (l : Word) (p : Nat) : List Byte :=
  0x80 :: (List.replicate ((119 - p) % 64) 0 ++ be64Bytes (lengthField u l))

/-- `finalize()` (R82): latch `MLEN`, absorb the padding through `update`, mark FINALIZED. -/
def finalize (s : State) : State :=
  { update (pad s.params.lenUnit s.len s.plen.val) { s with mlen := s.len } with estate := .finalized }

/-- The engine state a new hash starts from: `words <- IV`, `PEND`, `PLEN` and `LEN` zero, FRESH (R85, R97, R98). -/
def startHash (s : State) : State :=
  { s with words := s.params.iv, pend := zeroBlock, plen := 0, len := 0, estate := .fresh }

/-! ## The digest function, said over whole blocks (R84) -/

/-- The consecutive 64-byte blocks of a byte string, the last filled with zeros if it is short. -/
def blocksOf (bs : List Byte) : List Block :=
  (List.range ((bs.length + 63) / 64)).map fun n => blockOf (bs.drop (64 * n))

/-- `s <- compress(s, B)` for each block `B` in order (R84). -/
def compressAll (k : Word) (w : Words) (bs : List Byte) : Words := (blocksOf bs).foldl (compress k) w

/-- The state words of `H(m)`: `IV` compressed with the blocks of `m ‖ pad(|m|, |m| mod 64)` (R84). -/
def hashWords (p : Params) (m : List Byte) : Words :=
  compressAll p.k p.iv (m ++ pad p.lenUnit (BitVec.ofNat 64 m.length) (m.length % 64))

/-- `H(m)`, 32 bytes (R84). -/
def hashBytes (p : Params) (m : List Byte) : List Byte := digestBytes (hashWords p m)

end Sys2Proof.Machine
end

