-- ==== Sys2Proof/Machine/Hmac.lean ====
section
/-! DEFINITION. The HMAC wrapper (42_hmac.md R93..R98): the pads, the finish, and the commands KEY_SET, KEY_FROM_DIGEST and
HMAC_START. -/

namespace Sys2Proof.Machine

/-- `IPAD = 0x36` (R6, R94). -/
def ipadByte : Byte := 0x36

/-- `OPAD = 0x5C` (R6, R94). -/
def opadByte : Byte := 0x5C

/-- `HMAC_KEY_MAX = 64`, the longest key used as it is (R6, R93). -/
def hmacKeyMax : Nat := 64

/-- `ipad_block[i] = KEY[i] XOR 0x36` (R94). -/
def ipadBlock (key : Block) : Block := key.map (· ^^^ ipadByte)

/-- `opad_block[i] = KEY[i] XOR 0x5C` (R94). -/
def opadBlock (key : Block) : Block := key.map (· ^^^ opadByte)

/-- `hmac_finish()` (R98): finalize the inner hash, then hash `opad_block ‖ inner` from `IV`.  MODE stays HMAC. -/
def hmacFinish (s : State) : State :=
  let inner := finalize s
  finalize (update (digestBytes inner.words) (update (opadBlock s.key).toList (startHash inner)))

/-- KEY_SET's checks (R95), in R113's order. -/
def keySetChecks (la : Nat) (s : State) : List (Bool × ErrCode) := [
  (decide (la > hmacKeyMax), .invalidLength),
  (decide (la = 0) && !s.params.allowEmptyKey, .invalidConfig),
  (decide (s.mode = .hmac) && decide (s.estate = .absorbing), .invalidConfig)]

/-- `KEY <- DIN[0..LA) ‖ 0^(64 - LA)`, `KEY_VALID <- 1` (R95). -/
def keySetEffect (la : Nat) (s : State) : State :=
  { s with key := blockOf (dinBytes la s), keyValid := true }

/-- KEY_SET LA (R95). -/
def execKeySet (la : Nat) (s : State) : Host.Outcome State Fault Refusal :=
  runCommand (keySetChecks la s) (keySetEffect la) s

/-- KEY_FROM_DIGEST's checks (R96). -/
def keyFromDigestChecks (s : State) : List (Bool × ErrCode) := [
  (!(decide (s.estate = .finalized) && decide (s.mode = .plain)), .invalidConfig),
  (decide (s.mlen.toNat ≤ hmacKeyMax), .invalidConfig)]

/-- `KEY <- digest_bytes() ‖ 0^32`, `KEY_VALID <- 1` (R96). -/
def keyFromDigestEffect (s : State) : State :=
  { s with key := blockOf (digestBytes s.words), keyValid := true }

/-- KEY_FROM_DIGEST (R96). -/
def execKeyFromDigest (s : State) : Host.Outcome State Fault Refusal :=
  runCommand (keyFromDigestChecks s) keyFromDigestEffect s

/-- HMAC_START's check (R97). -/
def hmacStartChecks (s : State) : List (Bool × ErrCode) := [(!s.keyValid, .keyNotValid)]

/-- A new hash in MODE = HMAC that has absorbed `ipad_block` (R97). -/
def hmacStartEffect (s : State) : State :=
  update (ipadBlock s.key).toList { startHash s with mlen := 0, mode := .hmac }

/-- HMAC_START (R97). -/
def execHmacStart (s : State) : Host.Outcome State Fault Refusal :=
  runCommand (hmacStartChecks s) hmacStartEffect s

/-! ## HMAC as a function of key and message (R93, R99) -/

/-- `keyblock(k)` (R93): a key longer than 64 bytes is replaced by its digest. -/
def keyBlock (p : Params) (k : List Byte) : Block :=
  if k.length > hmacKeyMax then blockOf (hashBytes p k) else blockOf k

/-- `H(opad_block ‖ H(ipad_block ‖ m))` for a loaded key block (R99). -/
def hmacOfBlock (p : Params) (key : Block) (m : List Byte) : List Byte :=
  hashBytes p ((opadBlock key).toList ++ hashBytes p ((ipadBlock key).toList ++ m))

/-- `HMAC(k, m)` (R2, R99). -/
def hmacBytes (p : Params) (k m : List Byte) : List Byte := hmacOfBlock p (keyBlock p k) m

end Sys2Proof.Machine
end

