-- ==== Sys2Proof/Machine/Stream.lean ====
section
/-! DEFINITION. The streaming commands INIT, ABSORB and FINAL (41_stream.md R85..R87). -/

namespace Sys2Proof.Machine

/-- The most bytes one ABSORB takes, 64 (R86). -/
def absorbMax : Nat := 64

/-- INIT's effect (R85). -/
def initEffect (s : State) : State := { startHash s with mlen := 0, mode := .plain }

/-- INIT (R85): no check beyond the encoding's; allowed in every ESTATE. -/
def execInit (s : State) : Host.Outcome State Fault Refusal := runCommand [] initEffect s

/-- ABSORB's checks (R86), in R113's order. -/
def absorbChecks (la : Nat) (s : State) : List (Bool × ErrCode) := [
  (decide (la > absorbMax), .invalidLength),
  (decide (s.estate = .idle), .notInitialized)]

/-- ABSORB LA (R86): `update(DIN[0..LA))`, which does nothing in FINALIZED. -/
def execAbsorb (la : Nat) (s : State) : Host.Outcome State Fault Refusal :=
  runCommand (absorbChecks la s) (update (dinBytes la s)) s

/-- FINAL's checks (R87), in R113's order. -/
def finalChecks (s : State) : List (Bool × ErrCode) := [
  (decide (s.estate = .idle), .notInitialized),
  (decide (s.estate = .finalized), .alreadyFinalized)]

/-- FINAL's effect by MODE (R87; log entry 12). -/
def finalEffect (s : State) : State :=
  match s.mode with
  | .plain => finalize s
  | .hmac => hmacFinish s

/-- FINAL (R87). -/
def execFinal (s : State) : Host.Outcome State Fault Refusal :=
  runCommand (finalChecks s) finalEffect s

end Sys2Proof.Machine
end

