-- ==== Sys2Proof/Machine/Dispatch.lean ====
section
/-! DEFINITION. The dispatch of a decoded command to its meaning (30_encoding.md R65, `perform`), one arm per command. -/

namespace Sys2Proof.Machine

/-- R65's step for a decoded command: check, perform, commit. -/
def exec (i : Instr) (s : State) : Host.Outcome State Fault Refusal :=
  match i with
  | .nop => Sys2Proof.Machine.execNop s
  | .init => Sys2Proof.Machine.execInit s
  | .absorb la => Sys2Proof.Machine.execAbsorb la s
  | .final => Sys2Proof.Machine.execFinal s
  | .zeroize => Sys2Proof.Machine.execZeroize s
  | .keySet la => Sys2Proof.Machine.execKeySet la s
  | .keyFromDigest => Sys2Proof.Machine.execKeyFromDigest s
  | .hmacStart => Sys2Proof.Machine.execHmacStart s
  | .ctEq la lb b => Sys2Proof.Machine.execCtEq la lb b s

end Sys2Proof.Machine
end

