-- ==== Sys2Proof/Machine/Engine.lean ====
section
/-! DEFINITION. The engine's turn (30_encoding.md R65): take the latched command word, decode it, and perform the command or
raise ILLEGAL_CMD. -/

namespace Sys2Proof.Machine

/-- An illegal command word (R64): ILLEGAL_CMD, and when its OP is CT_EQ's the comparison flags are cleared too, since a CT_EQ
that raises ANY error clears them (R103, R112; log entry 8). -/
def illegalCommand (v : Word32) (s : State) : State :=
  if cmdOp v = 0x20 then raiseCompareError .illegalCmd s else raiseError .illegalCmd s

/-- R65's step on a command word. -/
def performWord (v : Word32) (s : State) : Host.Outcome State Fault Refusal :=
  match decode v with
  | .ok i => exec i s
  | .error _ => .next (illegalCommand v s)

/-- The engine's turn: enabled exactly when BUSY = 1 (R65); else it passes. -/
def engineStep (s : State) : Host.Outcome State Fault Refusal :=
  if s.busy then performWord s.cmdLatch s else .next s

/-- The state whose turn has been taken: the rest of the turns are to come. -/
def State.afterTurn (s : State) (rest : List Turn) : State := { s with turns := rest }

/-- A 32-bit word as the pending command, and the engine's turn next (for State.withFetchWord). -/
def pendingCommand (s : State) (v : Word32) : State :=
  { s with busy := true, cmdLatch := v, turns := .engine :: s.turns }

end Sys2Proof.Machine
end

