-- ==== Sys2Proof/Machine/Step.lean ====
section
/-! DEFINITION. One step of the machine: the next turn of one of its three agents (00_scope.md R5; 20_memory.md R51, R54). -/

namespace Sys2Proof.Machine

/-- One turn.  When no turn is scheduled, the engine performs the pending command if there is one (R130), and else the block
waits for the host, unchanged. -/
def step (s : State) : Host.Outcome State Fault Refusal :=
  match s.turns with
  | [] => engineStep s
  | .engine :: rest => engineStep (s.afterTurn rest)
  | .host a :: rest => busAccess a (s.afterTurn rest)
  | .reset :: rest => .next (resetBlock (s.afterTurn rest))

/-- The command word `w` (of `nbits` bits, the bits above them 0) accepted and not yet performed, with the engine's turn next,
so that the very next step performs it (log entry 3). -/
def State.withFetchWord (s : State) (nbits w : Nat) : State :=
  pendingCommand s (BitVec.ofNat 32 (w % 2 ^ nbits))

end Sys2Proof.Machine
end

