-- ==== Sys2Proof/Safety.lean ====
section
/-! DEFINITION. The terms claims use: the invariants of 10_state.md R38..R42, what a host can see (R16, R17, R22, R25, R36), and
the absorption of a message in chunks between other activity of the host (41_stream.md R90). -/

namespace Sys2Proof.Machine

/-! ## Invariants -/

/-- R38: `PLEN = LEN mod 64` (`PLEN < 64` is in its type). -/
abbrev State.PlenMatchesLen (s : State) : Prop := s.plen.val = s.len.toNat % 64

/-- R39: `PEND[k] = 0` for every `k >= PLEN`. -/
abbrev State.PendClearAbovePlen (s : State) : Prop := ∀ k : Fin 64, s.plen.val ≤ k.val → s.pend[k] = 0

/-- R40: in IDLE the hash state is erased. -/
abbrev State.IdleErased (s : State) : Prop :=
  s.estate = .idle →
    s.words = Vector.replicate 4 0 ∧ s.plen = 0 ∧ s.len = 0 ∧ s.mlen = 0 ∧ s.mode = .plain

/-- R20: FRESH is initialised with IV and has absorbed nothing. -/
abbrev State.FreshInitial (s : State) : Prop :=
  s.estate = .fresh → s.words = s.params.iv ∧ s.plen = 0 ∧ s.len = 0 ∧ s.mlen = 0

/-- R41: MODE = HMAC only in ABSORBING or FINALIZED. -/
abbrev State.HmacUnderWay (s : State) : Prop :=
  s.mode = .hmac → s.estate = .absorbing ∨ s.estate = .finalized

/-- R41: FINALIZED leaves no pending byte. -/
abbrev State.FinalizedDrained (s : State) : Prop := s.estate = .finalized → s.plen = 0

/-- R42: without a valid key the key block is all zero. -/
abbrev State.KeyErased (s : State) : Prop := s.keyValid = false → s.key = zeroBlock

/-- R103, R107, R112: CMP_EQ is set only together with CMP_VALID. -/
abbrev State.CompareBacked (s : State) : Prop := s.cmpEq = true → s.cmpValid = true

/-- R111, R112: LAST_ERR is 0 or the code of an error a command raises (never 6, never 8..15). -/
abbrev State.LastErrLegal (s : State) : Prop := s.lastErr.toNat ≤ 7 ∧ s.lastErr ≠ 6

/-- The invariants together.  They hold also while BUSY = 1, since a command commits in one step. -/
abbrev State.Inv (s : State) : Prop :=
  s.PlenMatchesLen ∧ s.PendClearAbovePlen ∧ s.IdleErased ∧ s.FreshInitial ∧ s.HmacUnderWay
    ∧ s.FinalizedDrained ∧ s.KeyErased ∧ s.CompareBacked ∧ s.LastErrLegal

/-! ## What a host can see -/

/-- Two states no host access can tell apart: they may differ in `PEND`, `KEY`, `CMDLATCH` and, while the digest is not readable,
in `words` (R16, R17, R22, R25, R36). -/
abbrev SameVisible (s t : State) : Prop :=
  s.plen = t.plen ∧ s.len = t.len ∧ s.mlen = t.mlen ∧ s.estate = t.estate ∧ s.mode = t.mode
    ∧ s.keyValid = t.keyValid ∧ s.cmpEq = t.cmpEq ∧ s.cmpValid = t.cmpValid ∧ s.err = t.err
    ∧ s.lastErr = t.lastErr ∧ s.busy = t.busy ∧ s.din = t.din ∧ s.cmpb = t.cmpb
    ∧ s.params = t.params ∧ s.turns = t.turns ∧ s.resps = t.resps
    ∧ (digestReadable s = true → s.words = t.words)

/-! ## A message in chunks -/

/-- The same engine state and key: what is left alone by host writes to DIN, CMPB and ERR, and by the commands that do not touch
the engine (NOP, CT_EQ, and any command that fails). -/
abbrev SameEngine (s t : State) : Prop :=
  s.words = t.words ∧ s.pend = t.pend ∧ s.plen = t.plen ∧ s.len = t.len ∧ s.mlen = t.mlen
    ∧ s.estate = t.estate ∧ s.mode = t.mode ∧ s.key = t.key ∧ s.params = t.params

/-- `AbsorbRun s m t`: the machine gets from `s` to `t` by ABSORB commands of at most 64 bytes each, whose bytes taken in order
are `m`; before each ABSORB the host may do anything that leaves the engine state and the key alone (R90). -/
inductive AbsorbRun : State → List Byte → State → Prop where
  | start (s : State) : AbsorbRun s [] s
  | chunk {s t u v : State} {m : List Byte} {la : Nat} :
      AbsorbRun s m t → SameEngine t u → la ≤ 64 → exec (.absorb la) u = .next v →
      AbsorbRun s (m ++ dinBytes la u) v

/-- A finished hash of `m` started at `s` by INIT: INIT, ABSORBs of `m`, FINAL, with other host activity between them; `t` is the
state after FINAL (R84). -/
def HashRun (s : State) (m : List Byte) (t : State) : Prop :=
  ∃ s₁ s₂ u, exec .init s = .next s₁ ∧ AbsorbRun s₁ m s₂ ∧ SameEngine s₂ u ∧ exec .final u = .next t

/-- A finished HMAC of `m` started at `s` by HMAC_START (R99). -/
def HmacRun (s : State) (m : List Byte) (t : State) : Prop :=
  ∃ s₁ s₂ u, exec .hmacStart s = .next s₁ ∧ AbsorbRun s₁ m s₂ ∧ SameEngine s₂ u ∧ exec .final u = .next t

/-! ## The engine's turn, and bounded progress -/

/-- The step performs the pending command: BUSY = 1 and the turn is the engine's (R65). -/
abbrev State.engineActs (s : State) : Prop :=
  s.busy = true ∧ (s.turns = [] ∨ ∃ rest, s.turns = .engine :: rest)

/-- Every host access still to come is to this block's window (R43). -/
abbrev State.accessesInWindow (s : State) : Prop :=
  ∀ a : BusAccess, Turn.host a ∈ s.turns → inWindow s.params a.addr = true

end Sys2Proof.Machine
end

