-- ==== Sys2Proof/Certificates/Slice0/Obligations.lean ====
section
/-! DEFINITION. The statements about the VORTEX-HASH core, from the numbered rules of the spec.  Each is about every state (also
ones no run reaches) and every value of the OPEN parameters; a statement that a command COMPLETES has that as its
conclusion.  Where a statement gives the WHOLE state after a command, it also says that CMDLATCH keeps its word while BUSY = 0, which
is the model's reading (log entry 7); where it gives the whole state after an access or a reset, what it says of the lists of
turns and answers is the model's own (log entries 3 and 4). -/

open Sys2Proof Sys2Proof.Machine

/-! ## Command words (30_encoding.md) -/

/-- R61, R63: decoding the word of a well-formed command gives the command back, with every operand value its fields admit. -/
def Obligations.DecodeEncodeRoundTrip : Prop :=
  ∀ i : Instr, i.wellFormed = true → decode (encode i) = .ok i

/-- R61, R63: a word decodes to at most the command whose word it is; no bit of it is dropped. -/
def Obligations.EncodeDecodeRoundTrip : Prop :=
  ∀ (v : Word32) (i : Instr), decode v = .ok i → i.wellFormed = true ∧ encode i = v

/-- R64: a word is illegal exactly when its OP is not in R63, or RSV is nonzero, or a field its opcode marks "0" is
nonzero. -/
def Obligations.IllegalWordsAreTheOnesR64Names : Prop :=
  ∀ v : Word32, (∃ e, decode v = .error e) ↔
    (cmdOp v ∉ ([0x00, 0x01, 0x02, 0x03, 0x04, 0x10, 0x11, 0x12, 0x20] : List (BitVec 8))
      ∨ cmdRsv v ≠ 0
      ∨ (cmdOp v ∉ ([0x02, 0x10, 0x20] : List (BitVec 8)) ∧ cmdLA v ≠ 0)
      ∨ (cmdOp v ≠ 0x20 ∧ (cmdLB v ≠ 0 ∨ cmdBsel v ≠ 0)))

/-- R63: "a word decodes to a row when (v AND mask) = match"; the rows are those of opcode_table.json. -/
def Obligations.WordsDecodeToTheirTableRow : Prop :=
  (∀ (v : Word32) (i : Instr), decode v = .ok i →
    ∃ row ∈ opcodeTable, row.accepts v = true ∧ row.opcode = i.opcode) ∧
  (∀ (v : Word32) (row : OpcodeRow), row ∈ opcodeTable → row.accepts v = true →
    ∃ i, decode v = .ok i ∧ i.opcode = row.opcode)

/-- R85, R86, R87, R95, R103, R107: words the spec writes out decode to the commands they stand for. -/
def Obligations.WordsTheSpecWritesOutDecode : Prop :=
  decode 0x00000001 = .ok .init ∧ decode 0x00000302 = .ok (.absorb 3) ∧ decode 0x00000003 = .ok .final
    ∧ decode 0x00000310 = .ok (.keySet 3) ∧ decode 0x00000012 = .ok .hmacStart
    ∧ decode 0x00020320 = .ok (.ctEq 3 2 .cmpb) ∧ decode 0x00A01020 = .ok (.ctEq 16 32 .digest)
    ∧ decode 0x00000004 = .ok .zeroize ∧ decode 0x01000001 = .error .reservedBits

/-! ## The engine's step (30_encoding.md R65; 70_reset_and_hazards.md R130) -/

/-- R65: when BUSY = 1 and the latched word decodes to a command, the engine's turn is `exec` of that command; the model's own
turn list (log entry 3) loses the turn taken. -/
def Obligations.StepRunsTheDecodedCommand : Prop :=
  ∀ (s : State) (i : Instr), s.busy = true → decode s.cmdLatch = .ok i →
    (s.turns = [] → step s = exec i s) ∧
    (∀ rest, s.turns = .engine :: rest → step s = exec i { s with turns := rest })

/-- R65: the engine's step is enabled exactly when BUSY = 1; when BUSY = 0 its turn changes nothing but the model's turn list
(log entry 3). -/
def Obligations.EngineTurnWithoutCommandChangesNothing : Prop :=
  ∀ s : State, s.busy = false →
    (s.turns = [] → step s = .next s) ∧
    (∀ rest, s.turns = .engine :: rest → step s = .next { s with turns := rest })

/-- R64, R111, R112: an illegal word reports ILLEGAL_CMD (code 5, ERR[4]) and completes, with no other effect; one whose OP is
CT_EQ's is a CT_EQ that raises an error, so it also clears the comparison flags (the model's reading, log entry 8).  That CMDLATCH
keeps the failed word is the model's reading too (log entry 7). -/
def Obligations.IllegalWordOnlyReportsIllegalCmd : Prop :=
  ∀ (s : State) (v : Word32) (e : IllegalCmd), decode v = .error e →
    (cmdOp v ≠ 0x20 →
      performWord v s = .next { s with err := s.err ||| 0b0010000, lastErr := 5, busy := false }) ∧
    (cmdOp v = 0x20 →
      performWord v s = .next { s with
        err := s.err ||| 0b0010000, lastErr := 5, busy := false, cmpEq := false, cmpValid := false })

/-- R130: the engine's turn on a pending command, whatever its word, completes it: BUSY returns to 0. -/
def Obligations.EngineTurnCompletesThePendingCommand : Prop :=
  ∀ s : State, s.busy = true → (s.turns = [] ∨ ∃ rest, s.turns = .engine :: rest) →
    ∃ t, step s = .next t ∧ t.busy = false

/-- R130: a pending command does not stay pending forever: within one step more than there are turns to come, BUSY is 0 at
some moment (the command is performed, or reset discards it). -/
def Obligations.PendingCommandEndsWithinTheTurns : Prop :=
  ∀ s : State, s.busy = true → s.accessesInWindow →
    ∃ k t, k ≤ s.turns.length + 1 ∧ core.run k s = .next t ∧ t.busy = false

/-- R112: how a command word ends.  With an error, the state is the one before the command but for `ERR[c-1] <- 1`,
`LAST_ERR <- c` and, for a CT_EQ, the cleared comparison flags; without one, LAST_ERR is 0 and ERR is unchanged.  A
BUSY_VIOLATION sets ERR[5] and changes nothing else.  The model's readings: that CMDLATCH keeps the failed word (log entry 7), and
that an illegal word with CT_EQ's OP counts as a CT_EQ (log entry 8). -/
def Obligations.ErrorsChangeOnlyTheReports : Prop :=
  (∀ (v : Word32) (s t : State), performWord v s = .next t →
    t.busy = false ∧
    (t.lastErr = 0 → t.err = s.err) ∧
    (t.lastErr ≠ 0 → t = { s with
      err := s.err ||| 1#7 <<< (t.lastErr.toNat - 1)
      lastErr := t.lastErr
      busy := false
      cmpEq := if cmdOp v = 0x20 then false else s.cmpEq
      cmpValid := if cmdOp v = 0x20 then false else s.cmpValid })) ∧
  (∀ (v : Word32) (s : State) (r : Reg), s.busy = true → (r = .cmd ∨ (∃ m, r = .din m) ∨ ∃ m, r = .cmpb m) →
    writeReg s r v = { s with err := s.err ||| 0b0100000 })

/-- R114: which codes each opcode can report; an unlisted opcode reports ILLEGAL_CMD. -/
def Obligations.CommandsReportOnlyTheirCodes : Prop :=
  ∀ (v : Word32) (s t : State), performWord v s = .next t →
    (cmdOp v ∈ ([0x00, 0x01, 0x04] : List (BitVec 8)) → t.lastErr ∈ ([0, 5] : List (BitVec 4))) ∧
    (cmdOp v = 0x02 → t.lastErr ∈ ([0, 5, 4, 3] : List (BitVec 4))) ∧
    (cmdOp v = 0x03 → t.lastErr ∈ ([0, 5, 3, 1] : List (BitVec 4))) ∧
    (cmdOp v = 0x10 → t.lastErr ∈ ([0, 5, 4, 2] : List (BitVec 4))) ∧
    (cmdOp v = 0x11 → t.lastErr ∈ ([0, 5, 2] : List (BitVec 4))) ∧
    (cmdOp v = 0x12 → t.lastErr ∈ ([0, 5, 7] : List (BitVec 4))) ∧
    (cmdOp v = 0x20 → t.lastErr ∈ ([0, 5, 4, 2] : List (BitVec 4))) ∧
    (cmdOp v ∉ opcodeTable.map (·.opcode) → t.lastErr = 5)

/-- R88: the ESTATE of every command that completes without error, the errors of ABSORB and FINAL that the table names, and that a
command that raises an error leaves ESTATE unchanged. -/
def Obligations.EstateFollowsTheTransitionTable : Prop :=
  ∀ (i : Instr) (s t : State), exec i s = .next t →
    (t.lastErr ≠ 0 → t.estate = s.estate) ∧
    (t.lastErr = 0 → match i with
      | .init => t.estate = .fresh
      | .absorb _ => s.estate ≠ .idle ∧ t.estate = if s.estate = .finalized then .finalized else .absorbing
      | .final => s.estate ≠ .idle ∧ s.estate ≠ .finalized ∧ t.estate = .finalized
      | .hmacStart => t.estate = .absorbing ∧ t.mode = .hmac
      | .zeroize => t.estate = .idle
      | .keySet _ => t.estate = s.estate
      | .keyFromDigest => t.estate = s.estate
      | .ctEq _ _ _ => t.estate = s.estate
      | .nop => t.estate = s.estate) ∧
    (s.estate = .idle → (i = .final ∨ ∃ la, la ≤ 64 ∧ i = .absorb la) → t.lastErr = ErrCode.notInitialized.code) ∧
    (s.estate = .finalized → i = .final → t.lastErr = ErrCode.alreadyFinalized.code)

/-! ## Who writes what, over every step -/

/-- R22, R101: no step changes KEY or KEY_VALID but reset and the engine's step that performs a KEY_SET, KEY_FROM_DIGEST or ZEROIZE
and completes it without error. -/
def Obligations.KeyChangesOnlyByKeyCommandsAndErasure : Prop :=
  ∀ s t : State, step s = .next t →
    (t.key = s.key ∧ t.keyValid = s.keyValid) ∨ (∃ rest, s.turns = .reset :: rest) ∨
      (s.engineActs ∧ t.lastErr = 0 ∧ cmdOp s.cmdLatch ∈ ([0x10, 0x11, 0x04] : List (BitVec 8)))

/-- R16 of the state words, and R17, R18, R88 and R95 of PEND, PLEN, LEN and ESTATE: they change only by reset and by the engine's
step that performs an INIT, HMAC_START, ABSORB, FINAL or ZEROIZE and completes it without error. -/
def Obligations.EngineStateChangesOnlyByHashCommands : Prop :=
  ∀ s t : State, step s = .next t →
    (t.words = s.words ∧ t.pend = s.pend ∧ t.plen = s.plen ∧ t.len = s.len ∧ t.estate = s.estate) ∨
      (∃ rest, s.turns = .reset :: rest) ∨
      (s.engineActs ∧ t.lastErr = 0
        ∧ cmdOp s.cmdLatch ∈ ([0x01, 0x12, 0x02, 0x03, 0x04] : List (BitVec 8)))

/-- R35: the windows DIN and CMPB keep their contents but for host writes while BUSY = 0, reset, and the engine's step that performs a
ZEROIZE and completes it without error. -/
def Obligations.WindowsChangeOnlyByHostAndErasure : Prop :=
  ∀ s t : State, step s = .next t →
    (t.din = s.din ∧ t.cmpb = s.cmpb) ∨ (∃ rest, s.turns = .reset :: rest) ∨
      (s.engineActs ∧ t.lastErr = 0 ∧ cmdOp s.cmdLatch = 0x04) ∨
      (s.busy = false ∧ ∃ addr v rest, s.turns = .host ⟨addr, 4, .write v⟩ :: rest
        ∧ s.params.base + 0x40 ≤ addr ∧ addr < s.params.base + 0xC0)

/-- R6, R7, R126: the parameters are fixed in the block: no step changes them; and `K` is odd whatever they are. -/
def Obligations.ParametersNeverChangeAndMultiplierIsOdd : Prop :=
  (∀ s t : State, step s = .next t → t.params = s.params) ∧ ∀ p : Params, p.k.getLsbD 0 = true

/-! ## NOP, INIT, ZEROIZE (41_stream.md, 44_lifecycle.md) -/

/-- R109: NOP only completes, in every state. -/
def Obligations.NopOnlyCompletes : Prop :=
  ∀ s : State, exec .nop s = .next { s with lastErr := 0, busy := false }

/-- R85: INIT starts a new unkeyed hash in every state, and changes nothing else. -/
def Obligations.InitStartsAPlainHash : Prop :=
  ∀ s : State, exec .init s = .next { s with
    words := s.params.iv, pend := Vector.replicate 64 0, plen := 0, len := 0, mlen := 0
    estate := .fresh, mode := .plain, lastErr := 0, busy := false }

/-- R107: ZEROIZE erases hash state, key material and operand data in every state, and keeps ERR. -/
def Obligations.ZeroizeErasesEverythingButErr : Prop :=
  ∀ s : State, exec .zeroize s = .next { s with
    words := Vector.replicate 4 0, pend := Vector.replicate 64 0, plen := 0, len := 0, mlen := 0
    key := Vector.replicate 64 0, keyValid := false, din := Vector.replicate 64 0, cmpb := Vector.replicate 64 0
    cmpEq := false, cmpValid := false, estate := .idle, mode := .plain, lastErr := 0, busy := false }

/-- R108: after ZEROIZE every register but ERR reads 0, STATUS too if ERR is 0, so nothing of the words, the buffer, the lengths
or the key is left to see. -/
def Obligations.NothingIsReadableAfterZeroize : Prop :=
  ∀ s : State, ∃ t, exec .zeroize s = .next t ∧
    (∀ r : Reg, r ≠ .err → r ≠ .status → readReg t r = 0) ∧
    readReg t .status = (if s.err = 0 then 0 else 0x80) ∧ readReg t .err = s.err.zeroExtend 32

/-! ## ABSORB (41_stream.md R79, R86) -/

/-- R79, R86: ABSORB of LA <= 64 bytes in FRESH or ABSORBING when they do not fill the buffer: they are stored from `PEND[PLEN]`
on and counted, nothing is compressed, nothing else changes. -/
def Obligations.AbsorbStoresBytesThatDoNotFillTheBuffer : Prop :=
  ∀ (la : Nat) (s : State), la ≤ 64 → (s.estate = .fresh ∨ s.estate = .absorbing) →
    ∀ h : s.plen.val + la < 64,
      exec (.absorb la) s = .next { s with
        pend := Vector.ofFn fun k => if s.plen.val ≤ k.val ∧ k.val < s.plen.val + la
          then s.din.toList.getD (k.val - s.plen.val) 0 else s.pend[k]
        plen := ⟨s.plen.val + la, h⟩
        len := s.len + BitVec.ofNat 64 la
        estate := .absorbing, lastErr := 0, busy := false }

/-- R79, R86: ABSORB of LA <= 64 bytes in FRESH or ABSORBING when they fill the buffer: exactly one compression, of the pending
bytes and the first of the new ones; the rest of the new bytes stay pending in a cleared buffer. -/
def Obligations.AbsorbCompressesOnceWhenTheBufferFills : Prop :=
  ∀ (la : Nat) (s : State), la ≤ 64 → (s.estate = .fresh ∨ s.estate = .absorbing) →
    64 ≤ s.plen.val + la → ∀ h : s.plen.val + la - 64 < 64,
      exec (.absorb la) s = .next { s with
        words := compress s.params.k s.words (Vector.ofFn fun k =>
          if k.val < s.plen.val then s.pend[k] else s.din.toList.getD (k.val - s.plen.val) 0)
        pend := Vector.ofFn fun k => if k.val < s.plen.val + la - 64
          then s.din.toList.getD (64 - s.plen.val + k.val) 0 else 0
        plen := ⟨s.plen.val + la - 64, h⟩
        len := s.len + BitVec.ofNat 64 la
        estate := .absorbing, lastErr := 0, busy := false }

/-- R86, R113: ABSORB in FINALIZED is a no-op without error; LA > 64 is INVALID_LENGTH in every state, also in FINALIZED and
IDLE; LA <= 64 in IDLE is NOT_INITIALIZED.  That CMDLATCH keeps the failed word is the model's
reading (log entry 7). -/
def Obligations.AbsorbNoOpAndErrors : Prop :=
  ∀ (la : Nat) (s : State),
    (la ≤ 64 → s.estate = .finalized →
      exec (.absorb la) s = .next { s with lastErr := 0, busy := false }) ∧
    (64 < la →
      exec (.absorb la) s = .next { s with err := s.err ||| 0b0001000, lastErr := 4, busy := false }) ∧
    (la ≤ 64 → s.estate = .idle →
      exec (.absorb la) s = .next { s with err := s.err ||| 0b0000100, lastErr := 3, busy := false })

/-! ## FINAL (41_stream.md R82, R87, R91; 42_hmac.md R98) -/

/-- R82, R87: FINAL in MODE = PLAIN and FRESH or ABSORBING: MLEN latches LEN, the padding is absorbed (and counted) through the
compression of every block of the pending bytes and the padding, PLEN and PEND end empty, ESTATE is FINALIZED. -/
def Obligations.FinalFinishesAPlainHash : Prop :=
  ∀ s : State, s.mode = .plain → (s.estate = .fresh ∨ s.estate = .absorbing) →
    exec .final s = .next { s with
      words := (blocksOf (s.pend.toList.take s.plen.val ++ pad s.params.lenUnit s.len s.plen.val)).foldl
        (compress s.params.k) s.words
      pend := Vector.replicate 64 0
      plen := 0
      len := s.len + BitVec.ofNat 64 (9 + (119 - s.plen.val) % 64)
      mlen := s.len
      estate := .finalized, lastErr := 0, busy := false }

/-- R87, R98: FINAL in MODE = HMAC: the words are those of `H(opad_block ‖ inner)`, where `inner` is the digest that finishing the
inner hash gives; MLEN = 96, LEN = 128, MODE stays HMAC, KEY is kept.  R98 speaks of ABSORBING; the FRESH case, which no run
reaches, is R87's pseudocode as the model reads it (log entry 12). -/
def Obligations.FinalFinishesAnHmac : Prop :=
  ∀ s : State, s.mode = .hmac → (s.estate = .fresh ∨ s.estate = .absorbing) →
    exec .final s = .next { s with
      words := hashWords s.params ((s.key.map (· ^^^ 0x5C)).toList ++ digestBytes
        ((blocksOf (s.pend.toList.take s.plen.val ++ pad s.params.lenUnit s.len s.plen.val)).foldl
          (compress s.params.k) s.words))
      pend := Vector.replicate 64 0
      plen := 0, len := 128, mlen := 96
      estate := .finalized, lastErr := 0, busy := false }

/-- R91: the second FINAL completes with LAST_ERR = 1 and ERR[0] = 1 and changes no other state, and DIGEST0..7 still read the
first digest.  That CMDLATCH keeps the failed word is the model's
reading (log entry 7). -/
def Obligations.SecondFinalKeepsTheDigest : Prop :=
  ∀ s : State, s.estate = .finalized →
    exec .final s = .next { s with err := s.err ||| 0b0000001, lastErr := 1, busy := false } ∧
    ∀ m : Fin 8, readReg { s with err := s.err ||| 0b0000001, lastErr := 1, busy := false } (.digest m) =
      readReg { s with busy := false } (.digest m)

/-- R87: FINAL in IDLE is NOT_INITIALIZED.  That CMDLATCH keeps the failed word is the model's
reading (log entry 7). -/
def Obligations.FinalInIdleIsNotInitialized : Prop :=
  ∀ s : State, s.estate = .idle →
    exec .final s = .next { s with err := s.err ||| 0b0000100, lastErr := 3, busy := false }

/-! ## KEY_SET, KEY_FROM_DIGEST, HMAC_START (42_hmac.md) -/

/-- R95: KEY_SET of 1..64 bytes (0 too where empty keys are allowed) outside a running HMAC: byte k of KEY is `DIN[k]` below LA and 0
from LA on, KEY_VALID is set, nothing else changes. -/
def Obligations.KeySetLoadsTheKeyBlock : Prop :=
  ∀ (la : Nat) (s : State), la ≤ 64 → (1 ≤ la ∨ s.params.allowEmptyKey = true) →
    ¬ (s.mode = .hmac ∧ s.estate = .absorbing) →
    exec (.keySet la) s = .next { s with
      key := Vector.ofFn fun k => if k.val < la then s.din[k] else 0
      keyValid := true, lastErr := 0, busy := false }

/-- R95, R113: KEY_SET's errors, by priority.  That CMDLATCH keeps the failed word is the model's
reading (log entry 7). -/
def Obligations.KeySetErrors : Prop :=
  ∀ (la : Nat) (s : State),
    (64 < la →
      exec (.keySet la) s = .next { s with err := s.err ||| 0b0001000, lastErr := 4, busy := false }) ∧
    (la ≤ 64 → ((la = 0 ∧ s.params.allowEmptyKey = false) ∨ (s.mode = .hmac ∧ s.estate = .absorbing)) →
      exec (.keySet la) s = .next { s with err := s.err ||| 0b0000010, lastErr := 2, busy := false })

/-- R96: KEY_FROM_DIGEST of a finished unkeyed digest of more than 64 bytes: byte `8i + t` of KEY is `words[i][8t+7:8t]` for the
32 digest bytes and zeros follow; KEY_VALID is set, nothing else changes. -/
def Obligations.KeyFromDigestLoadsTheDigest : Prop :=
  ∀ s : State, s.estate = .finalized → s.mode = .plain → 64 < s.mlen.toNat →
    exec .keyFromDigest s = .next { s with
      key := Vector.ofFn fun k => if h : k.val < 32
        then (s.words[k.val / 8]'(by omega)).extractLsb' (8 * (k.val % 8)) 8 else 0
      keyValid := true, lastErr := 0, busy := false }

/-- R96: KEY_FROM_DIGEST in every other state is INVALID_CONFIG.  That CMDLATCH keeps the failed word is the model's
reading (log entry 7). -/
def Obligations.KeyFromDigestErrors : Prop :=
  ∀ s : State, (s.estate ≠ .finalized ∨ s.mode = .hmac ∨ s.mlen.toNat ≤ 64) →
    exec .keyFromDigest s = .next { s with err := s.err ||| 0b0000010, lastErr := 2, busy := false }

/-- R97: HMAC_START with a key loaded, in every ESTATE: one compression of the block `KEY[k] XOR 0x36` from IV; LEN = 64, ABSORBING,
MODE = HMAC; the key block is kept. -/
def Obligations.HmacStartAbsorbsTheInnerPad : Prop :=
  ∀ s : State, s.keyValid = true →
    exec .hmacStart s = .next { s with
      words := compress s.params.k s.params.iv (s.key.map (· ^^^ 0x36))
      pend := Vector.replicate 64 0
      plen := 0, len := 64, mlen := 0
      estate := .absorbing, mode := .hmac, lastErr := 0, busy := false }

/-- R97: HMAC_START without a key is KEY_NOT_VALID.  That CMDLATCH keeps the failed word is the model's
reading (log entry 7). -/
def Obligations.HmacStartWithoutKeyIsKeyNotValid : Prop :=
  ∀ s : State, s.keyValid = false →
    exec .hmacStart s = .next { s with err := s.err ||| 0b1000000, lastErr := 7, busy := false }

/-! ## CT_EQ (43_compare.md) -/

/-- R103: CT_EQ that passes its checks: CMP_EQ says whether the lengths are equal and the bytes below them, of DIN against CMPB or
the digest; CMP_VALID is set, nothing else changes. -/
def Obligations.CtEqComparesTheOperands : Prop :=
  ∀ (la lb : Nat) (s : State), la ≤ 64 → lb ≤ 64 →
    exec (.ctEq la lb .cmpb) s = .next { s with
      cmpEq := decide (la = lb ∧ ∀ k : Fin 64, k.val < la → s.din[k] = s.cmpb[k])
      cmpValid := true, lastErr := 0, busy := false } ∧
    (lb ≤ 32 → s.estate = .finalized →
      exec (.ctEq la lb .digest) s = .next { s with
        cmpEq := decide (la = lb ∧ ∀ k : Fin 64, k.val < la → s.din[k] = (digestBytes s.words).getD k.val 0)
        cmpValid := true, lastErr := 0, busy := false })

/-- R103, R112, R113: CT_EQ's errors, by priority; each clears CMP_EQ and CMP_VALID.  That CMDLATCH keeps the failed word is the model's
reading (log entry 7). -/
def Obligations.CtEqErrorsClearTheResult : Prop :=
  ∀ (la lb : Nat) (b : OperandB) (s : State),
    ((64 < la ∨ 64 < lb ∨ (b = .digest ∧ 32 < lb)) →
      exec (.ctEq la lb b) s = .next { s with
        err := s.err ||| 0b0001000, lastErr := 4, busy := false, cmpEq := false, cmpValid := false }) ∧
    (la ≤ 64 → lb ≤ 32 → b = .digest → s.estate ≠ .finalized →
      exec (.ctEq la lb b) s = .next { s with
        err := s.err ||| 0b0000010, lastErr := 2, busy := false, cmpEq := false, cmpValid := false })

/-- R105: the comparator's laws. -/
def Obligations.ComparatorLaws : Prop :=
  ∀ (a b : Block) (la lb : Nat), la ≤ 64 → lb ≤ 64 →
    ctEqCore a a la la = true ∧
    (∀ k : Fin 64, k.val < la → a[k] ≠ b[k] → ctEqCore a b la la = false) ∧
    (la ≠ lb → ctEqCore a b la lb = false)

/-! ## The compression function (40_compression.md) -/

/-- R69: `w[k] = LE64(blk[8k .. 8k+8))`: byte t of word k is `blk[8k + t]`. -/
def Obligations.MessageWordsAreLittleEndian : Prop :=
  ∀ (blk : Block) (k t : Fin 8),
    ((messageWords blk)[k]).extractLsb' (8 * t.val) 8 = blk[8 * k.val + t.val]

/-- R70, R71: step i of round r, in place: for `j = (i + r) mod 4` other than i, `s[i]` becomes
`(rotl64(s[i] + w[2j] + w[2j+1], 13) XOR s[j]) * K`; for j = i, which happens exactly when `r mod 4 = 0`, the XOR operand is the
sum itself.  R68, R70, R73: `compress` is these steps in the order i = 0, 1, 2, 3 of the rounds r = 0 .. 7, and nothing after
them (R74). -/
def Obligations.CompressIsEightRoundsOfInPlaceSteps : Prop :=
  (∀ (k : Word) (w : Vector Word 8) (r : Nat) (s : Words) (i j : Fin 4), j.val = (i.val + r) % 4 →
    (j = i ↔ r % 4 = 0) ∧ mixStep k w r s i = s.set i
      (((s[i] + w[2 * j.val] + w[2 * j.val + 1]).rotateLeft 13 ^^^
        (if j = i then s[i] + w[2 * j.val] + w[2 * j.val + 1] else s[j])) * k)) ∧
  ∀ (k : Word) (s : Words) (blk : Block),
    compress k s blk = [0, 1, 2, 3, 4, 5, 6, 7].foldl (fun t r =>
      mixStep k (messageWords blk) r (mixStep k (messageWords blk) r (mixStep k (messageWords blk) r
        (mixStep k (messageWords blk) r t 0) 1) 2) 3) s

/-- R78: for every `K`, the zero state and the zero block compress to the zero state. -/
def Obligations.CompressOfZerosIsZero : Prop :=
  ∀ k : Word, compress k (Vector.replicate 4 0) (Vector.replicate 64 0) = Vector.replicate 4 0

/-- R77: `compress` is not injective in the state: for every `K`, two states that differ in word 0 (all zeros, all ones) compress to
the same result with the zero block. -/
def Obligations.CompressIsNotInjective : Prop :=
  ∀ k w₁ w₂ w₃ : Word,
    compress k #v[0, w₁, w₂, w₃] (Vector.replicate 64 0) =
      compress k #v[0xFFFFFFFFFFFFFFFF, w₁, w₂, w₃] (Vector.replicate 64 0)

/-! ## Padding, streaming, digests (41_stream.md, 42_hmac.md) -/

/-- R80: the padding starts with 0x80, ends with the 8 length bytes, most significant first, and is zero between.  R81, which the spec
derives from R80: its length is `9 + ((55 - p) mod 64)`, and it fills one block when `p <= 55` and two when `p >= 56`. -/
def Obligations.PaddingShapeAndLength : Prop :=
  ∀ (l : Word) (p : Nat), p < 64 →
    ((pad .bytes l p).length : Int) = 9 + (55 - (p : Int)) % 64 ∧
    p + (pad .bytes l p).length = (if p ≤ 55 then 64 else 128) ∧
    (pad .bytes l p).getD 0 0 = 0x80 ∧
    (∀ n, 1 ≤ n → n + 8 < (pad .bytes l p).length → (pad .bytes l p).getD n 1 = 0) ∧
    (∀ t, t < 8 → (pad .bytes l p).getD ((pad .bytes l p).length - 8 + t) 0 = l.extractLsb' (56 - 8 * t) 8) ∧
    pad .bits l p = pad .bytes (8 * l) p

/-- R90: the effect of `update` depends only on the concatenation of its data. -/
def Obligations.UpdateDependsOnlyOnTheConcatenation : Prop :=
  ∀ (s : State) (chunks : List (List Byte)), chunks ≠ [] →
    chunks.foldl (fun t c => update c t) s = update chunks.flatten s

/-- R84, R90: for every message there is a run of INIT, ABSORBs and FINAL that hashes it, and EVERY such run, however the message is
split and whatever else the host does in between that leaves the engine alone, ends with the words of `H(m)`, so
`digest_bytes() = H(m)`, FINALIZED, MLEN the message's length and LEN that length and the padding's. -/
def Obligations.EverySplitHashesToTheDigestFunction : Prop :=
  ∀ (s : State) (m : List Byte),
    (∃ t, HashRun s m t) ∧
    ∀ t, HashRun s m t →
      t.words = hashWords s.params m ∧ digestBytes t.words = hashBytes s.params m
        ∧ t.estate = .finalized ∧ t.mode = .plain ∧ t.plen = 0 ∧ t.mlen = BitVec.ofNat 64 m.length
        ∧ t.len = BitVec.ofNat 64 (m.length + 9 + (119 - m.length % 64) % 64)

/-- R99: with the key block of a key loaded, every run of HMAC_START, ABSORBs of a message and FINAL, however split, ends with
`digest_bytes() = H(opad(k) ‖ H(ipad(k) ‖ m))`, MODE = HMAC, FINALIZED, MLEN = 96 and LEN = 128; and there is one. -/
def Obligations.EverySplitHmacsToTheNestedHash : Prop :=
  ∀ (s : State) (key m : List Byte), s.keyValid = true → s.key = keyBlock s.params key →
    (∃ t, HmacRun s m t) ∧
    ∀ t, HmacRun s m t →
      digestBytes t.words = hmacBytes s.params key m ∧ t.estate = .finalized ∧ t.mode = .hmac
        ∧ t.mlen = 96 ∧ t.len = 128

/-- R93, R95, R96: the key block that gets loaded is `keyblock(k)`: by KEY_SET for a key of 1..64 bytes, and for a longer key by
KEY_FROM_DIGEST after any run that hashes it. -/
def Obligations.LoadedKeyBlockIsTheKeysBlock : Prop :=
  ∀ (s : State) (key : List Byte),
    (1 ≤ key.length → key.length ≤ 64 → s.din.toList.take key.length = key →
      ¬ (s.mode = .hmac ∧ s.estate = .absorbing) →
      ∃ t, exec (.keySet key.length) s = .next t ∧ t.key = keyBlock s.params key ∧ t.keyValid = true) ∧
    (64 < key.length → key.length < 2 ^ 64 → ∀ u, HashRun s key u →
      ∃ t, exec .keyFromDigest u = .next t ∧ t.key = keyBlock s.params key ∧ t.keyValid = true)

/-- R89: INIT then FINAL gives `compress(IV, 0x80 ‖ 0^55 ‖ BE64bytes(0))`. -/
def Obligations.EmptyMessageIsOneCompression : Prop :=
  ∀ s : State, ∃ t u, exec .init s = .next t ∧ exec .final t = .next u ∧
    u.words = compress s.params.k s.params.iv (Vector.ofFn fun k => if k.val = 0 then 0x80 else 0)

/-! ## The bus (10_state.md, 20_memory.md, 70_reset_and_hazards.md) -/

/-- R30, R37: the register map. -/
def Obligations.RegisterMap : Prop :=
  regAt 0x00 = .cmd ∧ regAt 0x04 = .status ∧ regAt 0x08 = .err ∧ regAt 0x10 = .lenLo ∧ regAt 0x14 = .lenHi
    ∧ regAt 0x18 = .mlenLo ∧ regAt 0x1C = .mlenHi
    ∧ (∀ m : Fin 16, regAt (0x40 + 4 * m.val) = .din m ∧ regAt (0x80 + 4 * m.val) = .cmpb m)
    ∧ (∀ m : Fin 8, regAt (0xC0 + 4 * m.val) = .digest m)
    ∧ (∀ n : Fin 64, regAt (4 * n.val) = .reserved ↔
        n.val = 3 ∨ (8 ≤ n.val ∧ n.val ≤ 15) ∨ 56 ≤ n.val)

/-- R49, R37: a legal read answers the register's value and has no side effect on the block; a reserved offset reads 0 and ignores
writes.  In every state, also while BUSY = 1: CMD reads 0 (R31), and byte t of DINm and CMPBm is byte `4m + t` of the window (R35, R47,
R129).  (The lists of turns and answers are the model's own, log entries 3 and 4.) -/
def Obligations.ReadsAnswerTheRegisterAndChangeNothing : Prop :=
  ∀ s : State,
    (∀ (off : Nat) (rest : List Turn), off < 256 → off % 4 = 0 →
      s.turns = .host ⟨s.params.base + off, 4, .read⟩ :: rest →
        step s = .next { s with turns := rest, resps := .data (readReg s (regAt off)) :: s.resps } ∧
        (regAt off = .reserved → readReg s (regAt off) = 0 ∧ ∀ v, writeReg s (regAt off) v = s)) ∧
    readReg s .cmd = 0 ∧
    ∀ (m : Fin 16) (t : Fin 4),
      (readReg s (.din m)).extractLsb' (8 * t.val) 8 = s.din[4 * m.val + t.val] ∧
      (readReg s (.cmpb m)).extractLsb' (8 * t.val) 8 = s.cmpb[4 * m.val + t.val]

/-- R46: an access to the window that is not 32 bits wide or not 4-byte aligned is answered with a bus error (data 0) and has no
effect on the block's state.  Which access is to the window (the one whose first byte lies in it, so a wide one may run past its
end) is log entry 10, and the lists of turns and answers are log entries 3 and 4. -/
def Obligations.IllegalAccessIsABusErrorWithoutEffect : Prop :=
  ∀ (s : State) (a : BusAccess) (rest : List Turn), s.turns = .host a :: rest →
    s.params.base ≤ a.addr → a.addr < s.params.base + 256 → (a.size ≠ 4 ∨ a.addr % 4 ≠ 0) →
    step s = .next { s with turns := rest, resps := .busError 0 :: s.resps }

/-- R128, R50: while BUSY = 1 a write to CMD, DIN or CMPB is dropped and sets ERR[5], a write to ERR clears, and every other write is
ignored; while BUSY = 0 a write to STATUS, LEN_LO/HI, MLEN_LO/HI, DIGEST0..7 or a reserved offset is ignored.  That dropped and ignored
writes are answered without a bus error is the model's reading (log entry 9), and the lists of turns and answers are its own (log
entries 3 and 4). -/
def Obligations.DroppedAndIgnoredWrites : Prop :=
  ∀ (s : State) (off : Nat) (v : Word32) (rest : List Turn), off < 256 → off % 4 = 0 →
    s.turns = .host ⟨s.params.base + off, 4, .write v⟩ :: rest →
    (s.busy = true → step s = .next { s with
      turns := rest
      resps := .done :: s.resps
      err := if off = 0 ∨ (0x40 ≤ off ∧ off < 0xC0) then s.err ||| 0b0100000
        else if off = 8 then s.err &&& ~~~(v.extractLsb' 0 7) else s.err }) ∧
    (s.busy = false → off ≠ 0 → off ≠ 8 → (off < 0x40 ∨ 0xC0 ≤ off) →
      step s = .next { s with turns := rest, resps := .done :: s.resps })

/-- R31: a write of CMD when BUSY = 0 latches the word and sets BUSY.  (The lists of turns and answers are the model's own,
log entries 3 and 4.) -/
def Obligations.CmdWriteLatchesTheCommand : Prop :=
  ∀ (s : State) (v : Word32) (rest : List Turn), s.busy = false →
    s.turns = .host ⟨s.params.base, 4, .write v⟩ :: rest →
    step s = .next { s with turns := rest, resps := .done :: s.resps, cmdLatch := v, busy := true }

/-- R35, R47: a write of v to DINm or CMPBm when BUSY = 0 sets byte `4m + t` of the window to `v[8t+7:8t]` and leaves every other
byte and all other state; reading the register back gives v.  (The lists of turns and answers are the model's own, log entries 3
and 4.) -/
def Obligations.WindowWriteStoresFourBytes : Prop :=
  ∀ (s : State) (m : Fin 16) (v : Word32) (rest : List Turn), s.busy = false →
    (s.turns = .host ⟨s.params.base + 0x40 + 4 * m.val, 4, .write v⟩ :: rest →
      ∃ d : Block, step s = .next { s with turns := rest, resps := .done :: s.resps, din := d } ∧
        (∀ k : Fin 64, d[k] =
          if k.val / 4 = m.val then v.extractLsb' (8 * (k.val % 4)) 8 else s.din[k]) ∧
        readReg { s with din := d } (.din m) = v) ∧
    (s.turns = .host ⟨s.params.base + 0x80 + 4 * m.val, 4, .write v⟩ :: rest →
      ∃ d : Block, step s = .next { s with turns := rest, resps := .done :: s.resps, cmpb := d } ∧
        (∀ k : Fin 64, d[k] =
          if k.val / 4 = m.val then v.extractLsb' (8 * (k.val % 4)) 8 else s.cmpb[k]) ∧
        readReg { s with cmpb := d } (.cmpb m) = v)

/-- R33, R50: a write of v to ERR clears exactly the bits that are 1 in v[6:0], also while BUSY = 1, and changes nothing else; ERR
reads its seven bits with zeros above; bit c-1 is set when an error of code c is reported.  (The lists
of turns and answers are the model's own, log entries 3 and 4.) -/
def Obligations.ErrWriteClearsTheOnesWritten : Prop :=
  ∀ s : State,
    (∀ (v : Word32) (rest : List Turn), s.turns = .host ⟨s.params.base + 8, 4, .write v⟩ :: rest →
      ∃ e : BitVec 7, step s = .next { s with turns := rest, resps := .done :: s.resps, err := e } ∧
        ∀ n : Fin 32, (readReg { s with err := e } .err).getLsbD n.val =
          (decide (n.val < 7) && s.err.getLsbD n.val && !v.getLsbD n.val)) ∧
    (∀ c : ErrCode, (readReg (raiseError c s) .err).getLsbD (c.code.toNat - 1) = true) ∧
    (readReg (busyViolation s) .err).getLsbD 5 = true

/-- R32: the fields of STATUS. -/
def Obligations.StatusFields : Prop :=
  ∀ s : State,
    (readReg s .status).extractLsb' 0 1 = BitVec.ofBool s.busy ∧
    (readReg s .status).extractLsb' 1 2 = s.estate.code ∧
    (readReg s .status).extractLsb' 3 1 = s.mode.code ∧
    (readReg s .status).extractLsb' 4 1 = BitVec.ofBool s.keyValid ∧
    (readReg s .status).extractLsb' 5 1 = BitVec.ofBool s.cmpEq ∧
    (readReg s .status).extractLsb' 6 1 = BitVec.ofBool s.cmpValid ∧
    (readReg s .status).extractLsb' 7 1 = BitVec.ofBool (s.err != 0) ∧
    ((readReg s .status).extractLsb' 8 7).toNat = s.plen.val ∧
    (readReg s .status).extractLsb' 15 1 = 0 ∧
    (readReg s .status).extractLsb' 16 4 = s.lastErr ∧
    (readReg s .status).extractLsb' 20 12 = 0

/-- R34, R36, R129: while BUSY = 1 the DIGEST, LEN and MLEN registers read 0; the digest reads 0 also outside FINALIZED; when it is
readable DIGEST(2i) and DIGEST(2i+1) are the halves of `words[i]`, and with BUSY = 0 LEN and MLEN read their halves. -/
def Obligations.ResultRegistersShowOnlyFinishedResults : Prop :=
  ∀ s : State,
    (s.busy = true → readReg s .lenLo = 0 ∧ readReg s .lenHi = 0 ∧ readReg s .mlenLo = 0 ∧ readReg s .mlenHi = 0) ∧
    (s.busy = false → readReg s .lenLo = s.len.extractLsb' 0 32 ∧ readReg s .lenHi = s.len.extractLsb' 32 32 ∧
      readReg s .mlenLo = s.mlen.extractLsb' 0 32 ∧ readReg s .mlenHi = s.mlen.extractLsb' 32 32) ∧
    (s.busy = true ∨ s.estate ≠ .finalized → ∀ m : Fin 8, readReg s (.digest m) = 0) ∧
    (s.busy = false → s.estate = .finalized → ∀ m : Fin 8,
      readReg s (.digest m) = (s.words[m.val / 2]'(by omega)).extractLsb' (32 * (m.val % 2)) 32)

/-- R16, R17, R22, R25, R36: no host access tells apart two states that differ only in PEND, KEY, CMDLATCH and, while the digest is
not readable, the state words: the answers are the same and the states stay so related. -/
def Obligations.HostAccessesDoNotRevealSecrets : Prop :=
  ∀ (s t s' : State) (a : BusAccess), SameVisible s t → busAccess a s = .next s' →
    ∃ t', busAccess a t = .next t' ∧ SameVisible s' t'

/-! ## Reset and the invariants (70_reset_and_hazards.md R124; 10_state.md R38..R42) -/

/-- R124: reset discards a pending command and sets every piece of the block's state to its reset value, whatever state it was in;
in the state after it every register reads 0.  That the parameters, the turns and the answers stay is the model's own (log
entries 1, 3 and 4). -/
def Obligations.ResetErasesTheBlock : Prop :=
  ∀ (s : State) (rest : List Turn), s.turns = .reset :: rest →
    ∃ t : State, step s = .next t ∧
      t = {
        words := Vector.replicate 4 0, pend := Vector.replicate 64 0, plen := 0, len := 0, mlen := 0
        estate := .idle, mode := .plain, key := Vector.replicate 64 0, keyValid := false
        cmpEq := false, cmpValid := false, err := 0, lastErr := 0, busy := false, cmdLatch := 0
        din := Vector.replicate 64 0, cmpb := Vector.replicate 64 0
        params := s.params, turns := rest, resps := s.resps } ∧
      ∀ r : Reg, readReg t r = 0

/-- R124, R38..R42: the invariants hold right after reset. -/
def Obligations.InvariantHoldsAtReset : Prop := State.reset.Inv

/-- R38..R42 (and R20, R103, R111): every step of every agent keeps the invariants, from every state that has them. -/
def Obligations.EveryStepKeepsTheInvariant : Prop :=
  ∀ s t : State, s.Inv → step s = .next t → t.Inv
end

