-- ==== Sys2Proof/Laws/State.lean ====
section
/-! SUPPORT. One lemma per field of State for each shared update, true by `rfl` and in the simp set, so that no later proof unfolds
an update of the record. -/

namespace Sys2Proof.Machine

/-! ## `complete` -/

@[simp] theorem complete_words (s : State) : (complete s).words = s.words := rfl
@[simp] theorem complete_pend (s : State) : (complete s).pend = s.pend := rfl
@[simp] theorem complete_plen (s : State) : (complete s).plen = s.plen := rfl
@[simp] theorem complete_len (s : State) : (complete s).len = s.len := rfl
@[simp] theorem complete_mlen (s : State) : (complete s).mlen = s.mlen := rfl
@[simp] theorem complete_estate (s : State) : (complete s).estate = s.estate := rfl
@[simp] theorem complete_mode (s : State) : (complete s).mode = s.mode := rfl
@[simp] theorem complete_key (s : State) : (complete s).key = s.key := rfl
@[simp] theorem complete_keyValid (s : State) : (complete s).keyValid = s.keyValid := rfl
@[simp] theorem complete_cmpEq (s : State) : (complete s).cmpEq = s.cmpEq := rfl
@[simp] theorem complete_cmpValid (s : State) : (complete s).cmpValid = s.cmpValid := rfl
@[simp] theorem complete_err (s : State) : (complete s).err = s.err := rfl
@[simp] theorem complete_lastErr (s : State) : (complete s).lastErr = 0 := rfl
@[simp] theorem complete_busy (s : State) : (complete s).busy = false := rfl
@[simp] theorem complete_cmdLatch (s : State) : (complete s).cmdLatch = s.cmdLatch := rfl
@[simp] theorem complete_din (s : State) : (complete s).din = s.din := rfl
@[simp] theorem complete_cmpb (s : State) : (complete s).cmpb = s.cmpb := rfl
@[simp] theorem complete_params (s : State) : (complete s).params = s.params := rfl
@[simp] theorem complete_turns (s : State) : (complete s).turns = s.turns := rfl
@[simp] theorem complete_resps (s : State) : (complete s).resps = s.resps := rfl

/-! ## `raiseError` -/

@[simp] theorem raiseError_words (c : ErrCode) (s : State) : (raiseError c s).words = s.words := rfl
@[simp] theorem raiseError_pend (c : ErrCode) (s : State) : (raiseError c s).pend = s.pend := rfl
@[simp] theorem raiseError_plen (c : ErrCode) (s : State) : (raiseError c s).plen = s.plen := rfl
@[simp] theorem raiseError_len (c : ErrCode) (s : State) : (raiseError c s).len = s.len := rfl
@[simp] theorem raiseError_mlen (c : ErrCode) (s : State) : (raiseError c s).mlen = s.mlen := rfl
@[simp] theorem raiseError_estate (c : ErrCode) (s : State) : (raiseError c s).estate = s.estate := rfl
@[simp] theorem raiseError_mode (c : ErrCode) (s : State) : (raiseError c s).mode = s.mode := rfl
@[simp] theorem raiseError_key (c : ErrCode) (s : State) : (raiseError c s).key = s.key := rfl
@[simp] theorem raiseError_keyValid (c : ErrCode) (s : State) : (raiseError c s).keyValid = s.keyValid := rfl
@[simp] theorem raiseError_cmpEq (c : ErrCode) (s : State) : (raiseError c s).cmpEq = s.cmpEq := rfl
@[simp] theorem raiseError_cmpValid (c : ErrCode) (s : State) : (raiseError c s).cmpValid = s.cmpValid := rfl
@[simp] theorem raiseError_err (c : ErrCode) (s : State) : (raiseError c s).err = s.err ||| c.errBit := rfl
@[simp] theorem raiseError_lastErr (c : ErrCode) (s : State) : (raiseError c s).lastErr = c.code := rfl
@[simp] theorem raiseError_busy (c : ErrCode) (s : State) : (raiseError c s).busy = false := rfl
@[simp] theorem raiseError_cmdLatch (c : ErrCode) (s : State) : (raiseError c s).cmdLatch = s.cmdLatch := rfl
@[simp] theorem raiseError_din (c : ErrCode) (s : State) : (raiseError c s).din = s.din := rfl
@[simp] theorem raiseError_cmpb (c : ErrCode) (s : State) : (raiseError c s).cmpb = s.cmpb := rfl
@[simp] theorem raiseError_params (c : ErrCode) (s : State) : (raiseError c s).params = s.params := rfl
@[simp] theorem raiseError_turns (c : ErrCode) (s : State) : (raiseError c s).turns = s.turns := rfl
@[simp] theorem raiseError_resps (c : ErrCode) (s : State) : (raiseError c s).resps = s.resps := rfl

/-! ## `raiseCompareError` -/

@[simp] theorem raiseCompareError_words (c : ErrCode) (s : State) : (raiseCompareError c s).words = s.words := rfl
@[simp] theorem raiseCompareError_pend (c : ErrCode) (s : State) : (raiseCompareError c s).pend = s.pend := rfl
@[simp] theorem raiseCompareError_plen (c : ErrCode) (s : State) : (raiseCompareError c s).plen = s.plen := rfl
@[simp] theorem raiseCompareError_len (c : ErrCode) (s : State) : (raiseCompareError c s).len = s.len := rfl
@[simp] theorem raiseCompareError_mlen (c : ErrCode) (s : State) : (raiseCompareError c s).mlen = s.mlen := rfl
@[simp] theorem raiseCompareError_estate (c : ErrCode) (s : State) : (raiseCompareError c s).estate = s.estate := rfl
@[simp] theorem raiseCompareError_mode (c : ErrCode) (s : State) : (raiseCompareError c s).mode = s.mode := rfl
@[simp] theorem raiseCompareError_key (c : ErrCode) (s : State) : (raiseCompareError c s).key = s.key := rfl
@[simp] theorem raiseCompareError_keyValid (c : ErrCode) (s : State) : (raiseCompareError c s).keyValid = s.keyValid := rfl
@[simp] theorem raiseCompareError_cmpEq (c : ErrCode) (s : State) : (raiseCompareError c s).cmpEq = false := rfl
@[simp] theorem raiseCompareError_cmpValid (c : ErrCode) (s : State) : (raiseCompareError c s).cmpValid = false := rfl
@[simp] theorem raiseCompareError_err (c : ErrCode) (s : State) : (raiseCompareError c s).err = s.err ||| c.errBit := rfl
@[simp] theorem raiseCompareError_lastErr (c : ErrCode) (s : State) : (raiseCompareError c s).lastErr = c.code := rfl
@[simp] theorem raiseCompareError_busy (c : ErrCode) (s : State) : (raiseCompareError c s).busy = false := rfl
@[simp] theorem raiseCompareError_cmdLatch (c : ErrCode) (s : State) : (raiseCompareError c s).cmdLatch = s.cmdLatch := rfl
@[simp] theorem raiseCompareError_din (c : ErrCode) (s : State) : (raiseCompareError c s).din = s.din := rfl
@[simp] theorem raiseCompareError_cmpb (c : ErrCode) (s : State) : (raiseCompareError c s).cmpb = s.cmpb := rfl
@[simp] theorem raiseCompareError_params (c : ErrCode) (s : State) : (raiseCompareError c s).params = s.params := rfl
@[simp] theorem raiseCompareError_turns (c : ErrCode) (s : State) : (raiseCompareError c s).turns = s.turns := rfl
@[simp] theorem raiseCompareError_resps (c : ErrCode) (s : State) : (raiseCompareError c s).resps = s.resps := rfl

/-! ## `withAbsorber` -/

@[simp] theorem withAbsorber_words (s : State) (e : Absorber) : (s.withAbsorber e).words = e.words := rfl
@[simp] theorem withAbsorber_pend (s : State) (e : Absorber) : (s.withAbsorber e).pend = e.pend := rfl
@[simp] theorem withAbsorber_plen (s : State) (e : Absorber) : (s.withAbsorber e).plen = e.plen := rfl
@[simp] theorem withAbsorber_len (s : State) (e : Absorber) : (s.withAbsorber e).len = s.len := rfl
@[simp] theorem withAbsorber_mlen (s : State) (e : Absorber) : (s.withAbsorber e).mlen = s.mlen := rfl
@[simp] theorem withAbsorber_estate (s : State) (e : Absorber) : (s.withAbsorber e).estate = s.estate := rfl
@[simp] theorem withAbsorber_mode (s : State) (e : Absorber) : (s.withAbsorber e).mode = s.mode := rfl
@[simp] theorem withAbsorber_key (s : State) (e : Absorber) : (s.withAbsorber e).key = s.key := rfl
@[simp] theorem withAbsorber_keyValid (s : State) (e : Absorber) : (s.withAbsorber e).keyValid = s.keyValid := rfl
@[simp] theorem withAbsorber_cmpEq (s : State) (e : Absorber) : (s.withAbsorber e).cmpEq = s.cmpEq := rfl
@[simp] theorem withAbsorber_cmpValid (s : State) (e : Absorber) : (s.withAbsorber e).cmpValid = s.cmpValid := rfl
@[simp] theorem withAbsorber_err (s : State) (e : Absorber) : (s.withAbsorber e).err = s.err := rfl
@[simp] theorem withAbsorber_lastErr (s : State) (e : Absorber) : (s.withAbsorber e).lastErr = s.lastErr := rfl
@[simp] theorem withAbsorber_busy (s : State) (e : Absorber) : (s.withAbsorber e).busy = s.busy := rfl
@[simp] theorem withAbsorber_cmdLatch (s : State) (e : Absorber) : (s.withAbsorber e).cmdLatch = s.cmdLatch := rfl
@[simp] theorem withAbsorber_din (s : State) (e : Absorber) : (s.withAbsorber e).din = s.din := rfl
@[simp] theorem withAbsorber_cmpb (s : State) (e : Absorber) : (s.withAbsorber e).cmpb = s.cmpb := rfl
@[simp] theorem withAbsorber_params (s : State) (e : Absorber) : (s.withAbsorber e).params = s.params := rfl
@[simp] theorem withAbsorber_turns (s : State) (e : Absorber) : (s.withAbsorber e).turns = s.turns := rfl
@[simp] theorem withAbsorber_resps (s : State) (e : Absorber) : (s.withAbsorber e).resps = s.resps := rfl

/-! ## `startHash` -/

@[simp] theorem startHash_words (s : State) : (startHash s).words = s.params.iv := rfl
@[simp] theorem startHash_pend (s : State) : (startHash s).pend = zeroBlock := rfl
@[simp] theorem startHash_plen (s : State) : (startHash s).plen = 0 := rfl
@[simp] theorem startHash_len (s : State) : (startHash s).len = 0 := rfl
@[simp] theorem startHash_mlen (s : State) : (startHash s).mlen = s.mlen := rfl
@[simp] theorem startHash_estate (s : State) : (startHash s).estate = .fresh := rfl
@[simp] theorem startHash_mode (s : State) : (startHash s).mode = s.mode := rfl
@[simp] theorem startHash_key (s : State) : (startHash s).key = s.key := rfl
@[simp] theorem startHash_keyValid (s : State) : (startHash s).keyValid = s.keyValid := rfl
@[simp] theorem startHash_cmpEq (s : State) : (startHash s).cmpEq = s.cmpEq := rfl
@[simp] theorem startHash_cmpValid (s : State) : (startHash s).cmpValid = s.cmpValid := rfl
@[simp] theorem startHash_err (s : State) : (startHash s).err = s.err := rfl
@[simp] theorem startHash_lastErr (s : State) : (startHash s).lastErr = s.lastErr := rfl
@[simp] theorem startHash_busy (s : State) : (startHash s).busy = s.busy := rfl
@[simp] theorem startHash_cmdLatch (s : State) : (startHash s).cmdLatch = s.cmdLatch := rfl
@[simp] theorem startHash_din (s : State) : (startHash s).din = s.din := rfl
@[simp] theorem startHash_cmpb (s : State) : (startHash s).cmpb = s.cmpb := rfl
@[simp] theorem startHash_params (s : State) : (startHash s).params = s.params := rfl
@[simp] theorem startHash_turns (s : State) : (startHash s).turns = s.turns := rfl
@[simp] theorem startHash_resps (s : State) : (startHash s).resps = s.resps := rfl

/-! ## `busyViolation` -/

@[simp] theorem busyViolation_words (s : State) : (busyViolation s).words = s.words := rfl
@[simp] theorem busyViolation_pend (s : State) : (busyViolation s).pend = s.pend := rfl
@[simp] theorem busyViolation_plen (s : State) : (busyViolation s).plen = s.plen := rfl
@[simp] theorem busyViolation_len (s : State) : (busyViolation s).len = s.len := rfl
@[simp] theorem busyViolation_mlen (s : State) : (busyViolation s).mlen = s.mlen := rfl
@[simp] theorem busyViolation_estate (s : State) : (busyViolation s).estate = s.estate := rfl
@[simp] theorem busyViolation_mode (s : State) : (busyViolation s).mode = s.mode := rfl
@[simp] theorem busyViolation_key (s : State) : (busyViolation s).key = s.key := rfl
@[simp] theorem busyViolation_keyValid (s : State) : (busyViolation s).keyValid = s.keyValid := rfl
@[simp] theorem busyViolation_cmpEq (s : State) : (busyViolation s).cmpEq = s.cmpEq := rfl
@[simp] theorem busyViolation_cmpValid (s : State) : (busyViolation s).cmpValid = s.cmpValid := rfl
@[simp] theorem busyViolation_err (s : State) : (busyViolation s).err = s.err ||| ErrCode.busyViolation.errBit := rfl
@[simp] theorem busyViolation_lastErr (s : State) : (busyViolation s).lastErr = s.lastErr := rfl
@[simp] theorem busyViolation_busy (s : State) : (busyViolation s).busy = s.busy := rfl
@[simp] theorem busyViolation_cmdLatch (s : State) : (busyViolation s).cmdLatch = s.cmdLatch := rfl
@[simp] theorem busyViolation_din (s : State) : (busyViolation s).din = s.din := rfl
@[simp] theorem busyViolation_cmpb (s : State) : (busyViolation s).cmpb = s.cmpb := rfl
@[simp] theorem busyViolation_params (s : State) : (busyViolation s).params = s.params := rfl
@[simp] theorem busyViolation_turns (s : State) : (busyViolation s).turns = s.turns := rfl
@[simp] theorem busyViolation_resps (s : State) : (busyViolation s).resps = s.resps := rfl

/-! ## `clearErr` -/

@[simp] theorem clearErr_words (v : Word32) (s : State) : (clearErr v s).words = s.words := rfl
@[simp] theorem clearErr_pend (v : Word32) (s : State) : (clearErr v s).pend = s.pend := rfl
@[simp] theorem clearErr_plen (v : Word32) (s : State) : (clearErr v s).plen = s.plen := rfl
@[simp] theorem clearErr_len (v : Word32) (s : State) : (clearErr v s).len = s.len := rfl
@[simp] theorem clearErr_mlen (v : Word32) (s : State) : (clearErr v s).mlen = s.mlen := rfl
@[simp] theorem clearErr_estate (v : Word32) (s : State) : (clearErr v s).estate = s.estate := rfl
@[simp] theorem clearErr_mode (v : Word32) (s : State) : (clearErr v s).mode = s.mode := rfl
@[simp] theorem clearErr_key (v : Word32) (s : State) : (clearErr v s).key = s.key := rfl
@[simp] theorem clearErr_keyValid (v : Word32) (s : State) : (clearErr v s).keyValid = s.keyValid := rfl
@[simp] theorem clearErr_cmpEq (v : Word32) (s : State) : (clearErr v s).cmpEq = s.cmpEq := rfl
@[simp] theorem clearErr_cmpValid (v : Word32) (s : State) : (clearErr v s).cmpValid = s.cmpValid := rfl
@[simp] theorem clearErr_err (v : Word32) (s : State) : (clearErr v s).err = s.err &&& ~~~(v.extractLsb' 0 7) := rfl
@[simp] theorem clearErr_lastErr (v : Word32) (s : State) : (clearErr v s).lastErr = s.lastErr := rfl
@[simp] theorem clearErr_busy (v : Word32) (s : State) : (clearErr v s).busy = s.busy := rfl
@[simp] theorem clearErr_cmdLatch (v : Word32) (s : State) : (clearErr v s).cmdLatch = s.cmdLatch := rfl
@[simp] theorem clearErr_din (v : Word32) (s : State) : (clearErr v s).din = s.din := rfl
@[simp] theorem clearErr_cmpb (v : Word32) (s : State) : (clearErr v s).cmpb = s.cmpb := rfl
@[simp] theorem clearErr_params (v : Word32) (s : State) : (clearErr v s).params = s.params := rfl
@[simp] theorem clearErr_turns (v : Word32) (s : State) : (clearErr v s).turns = s.turns := rfl
@[simp] theorem clearErr_resps (v : Word32) (s : State) : (clearErr v s).resps = s.resps := rfl

/-! ## `respond` -/

@[simp] theorem respond_words (r : BusResp) (s : State) : (respond r s).words = s.words := rfl
@[simp] theorem respond_pend (r : BusResp) (s : State) : (respond r s).pend = s.pend := rfl
@[simp] theorem respond_plen (r : BusResp) (s : State) : (respond r s).plen = s.plen := rfl
@[simp] theorem respond_len (r : BusResp) (s : State) : (respond r s).len = s.len := rfl
@[simp] theorem respond_mlen (r : BusResp) (s : State) : (respond r s).mlen = s.mlen := rfl
@[simp] theorem respond_estate (r : BusResp) (s : State) : (respond r s).estate = s.estate := rfl
@[simp] theorem respond_mode (r : BusResp) (s : State) : (respond r s).mode = s.mode := rfl
@[simp] theorem respond_key (r : BusResp) (s : State) : (respond r s).key = s.key := rfl
@[simp] theorem respond_keyValid (r : BusResp) (s : State) : (respond r s).keyValid = s.keyValid := rfl
@[simp] theorem respond_cmpEq (r : BusResp) (s : State) : (respond r s).cmpEq = s.cmpEq := rfl
@[simp] theorem respond_cmpValid (r : BusResp) (s : State) : (respond r s).cmpValid = s.cmpValid := rfl
@[simp] theorem respond_err (r : BusResp) (s : State) : (respond r s).err = s.err := rfl
@[simp] theorem respond_lastErr (r : BusResp) (s : State) : (respond r s).lastErr = s.lastErr := rfl
@[simp] theorem respond_busy (r : BusResp) (s : State) : (respond r s).busy = s.busy := rfl
@[simp] theorem respond_cmdLatch (r : BusResp) (s : State) : (respond r s).cmdLatch = s.cmdLatch := rfl
@[simp] theorem respond_din (r : BusResp) (s : State) : (respond r s).din = s.din := rfl
@[simp] theorem respond_cmpb (r : BusResp) (s : State) : (respond r s).cmpb = s.cmpb := rfl
@[simp] theorem respond_params (r : BusResp) (s : State) : (respond r s).params = s.params := rfl
@[simp] theorem respond_turns (r : BusResp) (s : State) : (respond r s).turns = s.turns := rfl
@[simp] theorem respond_resps (r : BusResp) (s : State) : (respond r s).resps = r :: s.resps := rfl

/-! ## `resetBlock` -/

@[simp] theorem resetBlock_words (s : State) : (resetBlock s).words = Vector.replicate 4 0 := rfl
@[simp] theorem resetBlock_pend (s : State) : (resetBlock s).pend = zeroBlock := rfl
@[simp] theorem resetBlock_plen (s : State) : (resetBlock s).plen = 0 := rfl
@[simp] theorem resetBlock_len (s : State) : (resetBlock s).len = 0 := rfl
@[simp] theorem resetBlock_mlen (s : State) : (resetBlock s).mlen = 0 := rfl
@[simp] theorem resetBlock_estate (s : State) : (resetBlock s).estate = .idle := rfl
@[simp] theorem resetBlock_mode (s : State) : (resetBlock s).mode = .plain := rfl
@[simp] theorem resetBlock_key (s : State) : (resetBlock s).key = zeroBlock := rfl
@[simp] theorem resetBlock_keyValid (s : State) : (resetBlock s).keyValid = false := rfl
@[simp] theorem resetBlock_cmpEq (s : State) : (resetBlock s).cmpEq = false := rfl
@[simp] theorem resetBlock_cmpValid (s : State) : (resetBlock s).cmpValid = false := rfl
@[simp] theorem resetBlock_err (s : State) : (resetBlock s).err = 0 := rfl
@[simp] theorem resetBlock_lastErr (s : State) : (resetBlock s).lastErr = 0 := rfl
@[simp] theorem resetBlock_busy (s : State) : (resetBlock s).busy = false := rfl
@[simp] theorem resetBlock_cmdLatch (s : State) : (resetBlock s).cmdLatch = 0 := rfl
@[simp] theorem resetBlock_din (s : State) : (resetBlock s).din = zeroBlock := rfl
@[simp] theorem resetBlock_cmpb (s : State) : (resetBlock s).cmpb = zeroBlock := rfl
@[simp] theorem resetBlock_params (s : State) : (resetBlock s).params = s.params := rfl
@[simp] theorem resetBlock_turns (s : State) : (resetBlock s).turns = s.turns := rfl
@[simp] theorem resetBlock_resps (s : State) : (resetBlock s).resps = s.resps := rfl

/-! ## `afterTurn` -/

@[simp] theorem afterTurn_words (s : State) (rest : List Turn) : (s.afterTurn rest).words = s.words := rfl
@[simp] theorem afterTurn_pend (s : State) (rest : List Turn) : (s.afterTurn rest).pend = s.pend := rfl
@[simp] theorem afterTurn_plen (s : State) (rest : List Turn) : (s.afterTurn rest).plen = s.plen := rfl
@[simp] theorem afterTurn_len (s : State) (rest : List Turn) : (s.afterTurn rest).len = s.len := rfl
@[simp] theorem afterTurn_mlen (s : State) (rest : List Turn) : (s.afterTurn rest).mlen = s.mlen := rfl
@[simp] theorem afterTurn_estate (s : State) (rest : List Turn) : (s.afterTurn rest).estate = s.estate := rfl
@[simp] theorem afterTurn_mode (s : State) (rest : List Turn) : (s.afterTurn rest).mode = s.mode := rfl
@[simp] theorem afterTurn_key (s : State) (rest : List Turn) : (s.afterTurn rest).key = s.key := rfl
@[simp] theorem afterTurn_keyValid (s : State) (rest : List Turn) : (s.afterTurn rest).keyValid = s.keyValid := rfl
@[simp] theorem afterTurn_cmpEq (s : State) (rest : List Turn) : (s.afterTurn rest).cmpEq = s.cmpEq := rfl
@[simp] theorem afterTurn_cmpValid (s : State) (rest : List Turn) : (s.afterTurn rest).cmpValid = s.cmpValid := rfl
@[simp] theorem afterTurn_err (s : State) (rest : List Turn) : (s.afterTurn rest).err = s.err := rfl
@[simp] theorem afterTurn_lastErr (s : State) (rest : List Turn) : (s.afterTurn rest).lastErr = s.lastErr := rfl
@[simp] theorem afterTurn_busy (s : State) (rest : List Turn) : (s.afterTurn rest).busy = s.busy := rfl
@[simp] theorem afterTurn_cmdLatch (s : State) (rest : List Turn) : (s.afterTurn rest).cmdLatch = s.cmdLatch := rfl
@[simp] theorem afterTurn_din (s : State) (rest : List Turn) : (s.afterTurn rest).din = s.din := rfl
@[simp] theorem afterTurn_cmpb (s : State) (rest : List Turn) : (s.afterTurn rest).cmpb = s.cmpb := rfl
@[simp] theorem afterTurn_params (s : State) (rest : List Turn) : (s.afterTurn rest).params = s.params := rfl
@[simp] theorem afterTurn_turns (s : State) (rest : List Turn) : (s.afterTurn rest).turns = rest := rfl
@[simp] theorem afterTurn_resps (s : State) (rest : List Turn) : (s.afterTurn rest).resps = s.resps := rfl

end Sys2Proof.Machine
end

