-- ==== Sys2Proof/Laws/Effects.lean ====
section
/-! SUPPORT. One lemma per field of State for each command's effect that is one record update, in the simp set, so that no
later proof compares whole records. -/

namespace Sys2Proof.Machine

/-! ## `initEffect` -/

@[simp] theorem initEffect_words (s : State) : (initEffect s).words = s.params.iv := by
  simp only [initEffect, startHash]
@[simp] theorem initEffect_pend (s : State) : (initEffect s).pend = zeroBlock := by
  simp only [initEffect, startHash]
@[simp] theorem initEffect_plen (s : State) : (initEffect s).plen = 0 := by
  simp only [initEffect, startHash]
@[simp] theorem initEffect_len (s : State) : (initEffect s).len = 0 := by
  simp only [initEffect, startHash]
@[simp] theorem initEffect_mlen (s : State) : (initEffect s).mlen = 0 := by
  simp only [initEffect, startHash]
@[simp] theorem initEffect_estate (s : State) : (initEffect s).estate = .fresh := by
  simp only [initEffect, startHash]
@[simp] theorem initEffect_mode (s : State) : (initEffect s).mode = .plain := by
  simp only [initEffect, startHash]
@[simp] theorem initEffect_key (s : State) : (initEffect s).key = s.key := by
  simp only [initEffect, startHash]
@[simp] theorem initEffect_keyValid (s : State) : (initEffect s).keyValid = s.keyValid := by
  simp only [initEffect, startHash]
@[simp] theorem initEffect_cmpEq (s : State) : (initEffect s).cmpEq = s.cmpEq := by
  simp only [initEffect, startHash]
@[simp] theorem initEffect_cmpValid (s : State) : (initEffect s).cmpValid = s.cmpValid := by
  simp only [initEffect, startHash]
@[simp] theorem initEffect_err (s : State) : (initEffect s).err = s.err := by
  simp only [initEffect, startHash]
@[simp] theorem initEffect_lastErr (s : State) : (initEffect s).lastErr = s.lastErr := by
  simp only [initEffect, startHash]
@[simp] theorem initEffect_busy (s : State) : (initEffect s).busy = s.busy := by
  simp only [initEffect, startHash]
@[simp] theorem initEffect_cmdLatch (s : State) : (initEffect s).cmdLatch = s.cmdLatch := by
  simp only [initEffect, startHash]
@[simp] theorem initEffect_din (s : State) : (initEffect s).din = s.din := by
  simp only [initEffect, startHash]
@[simp] theorem initEffect_cmpb (s : State) : (initEffect s).cmpb = s.cmpb := by
  simp only [initEffect, startHash]
@[simp] theorem initEffect_params (s : State) : (initEffect s).params = s.params := by
  simp only [initEffect, startHash]
@[simp] theorem initEffect_turns (s : State) : (initEffect s).turns = s.turns := by
  simp only [initEffect, startHash]
@[simp] theorem initEffect_resps (s : State) : (initEffect s).resps = s.resps := by
  simp only [initEffect, startHash]

/-! ## `keySetEffect` -/

@[simp] theorem keySetEffect_words (la : Nat) (s : State) : (keySetEffect la s).words = s.words := by
  simp only [keySetEffect]
@[simp] theorem keySetEffect_pend (la : Nat) (s : State) : (keySetEffect la s).pend = s.pend := by
  simp only [keySetEffect]
@[simp] theorem keySetEffect_plen (la : Nat) (s : State) : (keySetEffect la s).plen = s.plen := by
  simp only [keySetEffect]
@[simp] theorem keySetEffect_len (la : Nat) (s : State) : (keySetEffect la s).len = s.len := by
  simp only [keySetEffect]
@[simp] theorem keySetEffect_mlen (la : Nat) (s : State) : (keySetEffect la s).mlen = s.mlen := by
  simp only [keySetEffect]
@[simp] theorem keySetEffect_estate (la : Nat) (s : State) : (keySetEffect la s).estate = s.estate := by
  simp only [keySetEffect]
@[simp] theorem keySetEffect_mode (la : Nat) (s : State) : (keySetEffect la s).mode = s.mode := by
  simp only [keySetEffect]
@[simp] theorem keySetEffect_key (la : Nat) (s : State) : (keySetEffect la s).key = blockOf (dinBytes la s) := by
  simp only [keySetEffect]
@[simp] theorem keySetEffect_keyValid (la : Nat) (s : State) : (keySetEffect la s).keyValid = true := by
  simp only [keySetEffect]
@[simp] theorem keySetEffect_cmpEq (la : Nat) (s : State) : (keySetEffect la s).cmpEq = s.cmpEq := by
  simp only [keySetEffect]
@[simp] theorem keySetEffect_cmpValid (la : Nat) (s : State) : (keySetEffect la s).cmpValid = s.cmpValid := by
  simp only [keySetEffect]
@[simp] theorem keySetEffect_err (la : Nat) (s : State) : (keySetEffect la s).err = s.err := by
  simp only [keySetEffect]
@[simp] theorem keySetEffect_lastErr (la : Nat) (s : State) : (keySetEffect la s).lastErr = s.lastErr := by
  simp only [keySetEffect]
@[simp] theorem keySetEffect_busy (la : Nat) (s : State) : (keySetEffect la s).busy = s.busy := by
  simp only [keySetEffect]
@[simp] theorem keySetEffect_cmdLatch (la : Nat) (s : State) : (keySetEffect la s).cmdLatch = s.cmdLatch := by
  simp only [keySetEffect]
@[simp] theorem keySetEffect_din (la : Nat) (s : State) : (keySetEffect la s).din = s.din := by
  simp only [keySetEffect]
@[simp] theorem keySetEffect_cmpb (la : Nat) (s : State) : (keySetEffect la s).cmpb = s.cmpb := by
  simp only [keySetEffect]
@[simp] theorem keySetEffect_params (la : Nat) (s : State) : (keySetEffect la s).params = s.params := by
  simp only [keySetEffect]
@[simp] theorem keySetEffect_turns (la : Nat) (s : State) : (keySetEffect la s).turns = s.turns := by
  simp only [keySetEffect]
@[simp] theorem keySetEffect_resps (la : Nat) (s : State) : (keySetEffect la s).resps = s.resps := by
  simp only [keySetEffect]

/-! ## `keyFromDigestEffect` -/

@[simp] theorem keyFromDigestEffect_words (s : State) : (keyFromDigestEffect s).words = s.words := by
  simp only [keyFromDigestEffect]
@[simp] theorem keyFromDigestEffect_pend (s : State) : (keyFromDigestEffect s).pend = s.pend := by
  simp only [keyFromDigestEffect]
@[simp] theorem keyFromDigestEffect_plen (s : State) : (keyFromDigestEffect s).plen = s.plen := by
  simp only [keyFromDigestEffect]
@[simp] theorem keyFromDigestEffect_len (s : State) : (keyFromDigestEffect s).len = s.len := by
  simp only [keyFromDigestEffect]
@[simp] theorem keyFromDigestEffect_mlen (s : State) : (keyFromDigestEffect s).mlen = s.mlen := by
  simp only [keyFromDigestEffect]
@[simp] theorem keyFromDigestEffect_estate (s : State) : (keyFromDigestEffect s).estate = s.estate := by
  simp only [keyFromDigestEffect]
@[simp] theorem keyFromDigestEffect_mode (s : State) : (keyFromDigestEffect s).mode = s.mode := by
  simp only [keyFromDigestEffect]
@[simp] theorem keyFromDigestEffect_key (s : State) : (keyFromDigestEffect s).key = blockOf (digestBytes s.words) := by
  simp only [keyFromDigestEffect]
@[simp] theorem keyFromDigestEffect_keyValid (s : State) : (keyFromDigestEffect s).keyValid = true := by
  simp only [keyFromDigestEffect]
@[simp] theorem keyFromDigestEffect_cmpEq (s : State) : (keyFromDigestEffect s).cmpEq = s.cmpEq := by
  simp only [keyFromDigestEffect]
@[simp] theorem keyFromDigestEffect_cmpValid (s : State) : (keyFromDigestEffect s).cmpValid = s.cmpValid := by
  simp only [keyFromDigestEffect]
@[simp] theorem keyFromDigestEffect_err (s : State) : (keyFromDigestEffect s).err = s.err := by
  simp only [keyFromDigestEffect]
@[simp] theorem keyFromDigestEffect_lastErr (s : State) : (keyFromDigestEffect s).lastErr = s.lastErr := by
  simp only [keyFromDigestEffect]
@[simp] theorem keyFromDigestEffect_busy (s : State) : (keyFromDigestEffect s).busy = s.busy := by
  simp only [keyFromDigestEffect]
@[simp] theorem keyFromDigestEffect_cmdLatch (s : State) : (keyFromDigestEffect s).cmdLatch = s.cmdLatch := by
  simp only [keyFromDigestEffect]
@[simp] theorem keyFromDigestEffect_din (s : State) : (keyFromDigestEffect s).din = s.din := by
  simp only [keyFromDigestEffect]
@[simp] theorem keyFromDigestEffect_cmpb (s : State) : (keyFromDigestEffect s).cmpb = s.cmpb := by
  simp only [keyFromDigestEffect]
@[simp] theorem keyFromDigestEffect_params (s : State) : (keyFromDigestEffect s).params = s.params := by
  simp only [keyFromDigestEffect]
@[simp] theorem keyFromDigestEffect_turns (s : State) : (keyFromDigestEffect s).turns = s.turns := by
  simp only [keyFromDigestEffect]
@[simp] theorem keyFromDigestEffect_resps (s : State) : (keyFromDigestEffect s).resps = s.resps := by
  simp only [keyFromDigestEffect]

/-! ## `ctEqEffect` -/

@[simp] theorem ctEqEffect_words (la lb : Nat) (b : OperandB) (s : State) : (ctEqEffect la lb b s).words = s.words := by
  simp only [ctEqEffect]
@[simp] theorem ctEqEffect_pend (la lb : Nat) (b : OperandB) (s : State) : (ctEqEffect la lb b s).pend = s.pend := by
  simp only [ctEqEffect]
@[simp] theorem ctEqEffect_plen (la lb : Nat) (b : OperandB) (s : State) : (ctEqEffect la lb b s).plen = s.plen := by
  simp only [ctEqEffect]
@[simp] theorem ctEqEffect_len (la lb : Nat) (b : OperandB) (s : State) : (ctEqEffect la lb b s).len = s.len := by
  simp only [ctEqEffect]
@[simp] theorem ctEqEffect_mlen (la lb : Nat) (b : OperandB) (s : State) : (ctEqEffect la lb b s).mlen = s.mlen := by
  simp only [ctEqEffect]
@[simp] theorem ctEqEffect_estate (la lb : Nat) (b : OperandB) (s : State) : (ctEqEffect la lb b s).estate = s.estate := by
  simp only [ctEqEffect]
@[simp] theorem ctEqEffect_mode (la lb : Nat) (b : OperandB) (s : State) : (ctEqEffect la lb b s).mode = s.mode := by
  simp only [ctEqEffect]
@[simp] theorem ctEqEffect_key (la lb : Nat) (b : OperandB) (s : State) : (ctEqEffect la lb b s).key = s.key := by
  simp only [ctEqEffect]
@[simp] theorem ctEqEffect_keyValid (la lb : Nat) (b : OperandB) (s : State) : (ctEqEffect la lb b s).keyValid = s.keyValid := by
  simp only [ctEqEffect]
@[simp] theorem ctEqEffect_cmpEq (la lb : Nat) (b : OperandB) (s : State) : (ctEqEffect la lb b s).cmpEq = ctEqCore (compareA s) (compareB b s) la lb := by
  simp only [ctEqEffect]
@[simp] theorem ctEqEffect_cmpValid (la lb : Nat) (b : OperandB) (s : State) : (ctEqEffect la lb b s).cmpValid = true := by
  simp only [ctEqEffect]
@[simp] theorem ctEqEffect_err (la lb : Nat) (b : OperandB) (s : State) : (ctEqEffect la lb b s).err = s.err := by
  simp only [ctEqEffect]
@[simp] theorem ctEqEffect_lastErr (la lb : Nat) (b : OperandB) (s : State) : (ctEqEffect la lb b s).lastErr = s.lastErr := by
  simp only [ctEqEffect]
@[simp] theorem ctEqEffect_busy (la lb : Nat) (b : OperandB) (s : State) : (ctEqEffect la lb b s).busy = s.busy := by
  simp only [ctEqEffect]
@[simp] theorem ctEqEffect_cmdLatch (la lb : Nat) (b : OperandB) (s : State) : (ctEqEffect la lb b s).cmdLatch = s.cmdLatch := by
  simp only [ctEqEffect]
@[simp] theorem ctEqEffect_din (la lb : Nat) (b : OperandB) (s : State) : (ctEqEffect la lb b s).din = s.din := by
  simp only [ctEqEffect]
@[simp] theorem ctEqEffect_cmpb (la lb : Nat) (b : OperandB) (s : State) : (ctEqEffect la lb b s).cmpb = s.cmpb := by
  simp only [ctEqEffect]
@[simp] theorem ctEqEffect_params (la lb : Nat) (b : OperandB) (s : State) : (ctEqEffect la lb b s).params = s.params := by
  simp only [ctEqEffect]
@[simp] theorem ctEqEffect_turns (la lb : Nat) (b : OperandB) (s : State) : (ctEqEffect la lb b s).turns = s.turns := by
  simp only [ctEqEffect]
@[simp] theorem ctEqEffect_resps (la lb : Nat) (b : OperandB) (s : State) : (ctEqEffect la lb b s).resps = s.resps := by
  simp only [ctEqEffect]

/-! ## `zeroizeEffect` -/

@[simp] theorem zeroizeEffect_words (s : State) : (zeroizeEffect s).words = Vector.replicate 4 0 := by
  simp only [zeroizeEffect]
@[simp] theorem zeroizeEffect_pend (s : State) : (zeroizeEffect s).pend = zeroBlock := by
  simp only [zeroizeEffect]
@[simp] theorem zeroizeEffect_plen (s : State) : (zeroizeEffect s).plen = 0 := by
  simp only [zeroizeEffect]
@[simp] theorem zeroizeEffect_len (s : State) : (zeroizeEffect s).len = 0 := by
  simp only [zeroizeEffect]
@[simp] theorem zeroizeEffect_mlen (s : State) : (zeroizeEffect s).mlen = 0 := by
  simp only [zeroizeEffect]
@[simp] theorem zeroizeEffect_estate (s : State) : (zeroizeEffect s).estate = .idle := by
  simp only [zeroizeEffect]
@[simp] theorem zeroizeEffect_mode (s : State) : (zeroizeEffect s).mode = .plain := by
  simp only [zeroizeEffect]
@[simp] theorem zeroizeEffect_key (s : State) : (zeroizeEffect s).key = zeroBlock := by
  simp only [zeroizeEffect]
@[simp] theorem zeroizeEffect_keyValid (s : State) : (zeroizeEffect s).keyValid = false := by
  simp only [zeroizeEffect]
@[simp] theorem zeroizeEffect_cmpEq (s : State) : (zeroizeEffect s).cmpEq = false := by
  simp only [zeroizeEffect]
@[simp] theorem zeroizeEffect_cmpValid (s : State) : (zeroizeEffect s).cmpValid = false := by
  simp only [zeroizeEffect]
@[simp] theorem zeroizeEffect_err (s : State) : (zeroizeEffect s).err = s.err := by
  simp only [zeroizeEffect]
@[simp] theorem zeroizeEffect_lastErr (s : State) : (zeroizeEffect s).lastErr = s.lastErr := by
  simp only [zeroizeEffect]
@[simp] theorem zeroizeEffect_busy (s : State) : (zeroizeEffect s).busy = s.busy := by
  simp only [zeroizeEffect]
@[simp] theorem zeroizeEffect_cmdLatch (s : State) : (zeroizeEffect s).cmdLatch = s.cmdLatch := by
  simp only [zeroizeEffect]
@[simp] theorem zeroizeEffect_din (s : State) : (zeroizeEffect s).din = zeroBlock := by
  simp only [zeroizeEffect]
@[simp] theorem zeroizeEffect_cmpb (s : State) : (zeroizeEffect s).cmpb = zeroBlock := by
  simp only [zeroizeEffect]
@[simp] theorem zeroizeEffect_params (s : State) : (zeroizeEffect s).params = s.params := by
  simp only [zeroizeEffect]
@[simp] theorem zeroizeEffect_turns (s : State) : (zeroizeEffect s).turns = s.turns := by
  simp only [zeroizeEffect]
@[simp] theorem zeroizeEffect_resps (s : State) : (zeroizeEffect s).resps = s.resps := by
  simp only [zeroizeEffect]

end Sys2Proof.Machine
end

