-- ==== Sys2Proof/Laws/Codec.lean ====
section
/-! SUPPORT. Command words: the fields of an assembled word, the word of its fields, and what the decoder accepts
(30_encoding.md R61, R63, R64). -/

namespace Sys2Proof

/-- Bit `n` of an assembled word, by field (R61). -/
theorem assemble_getLsbD (op : BitVec 8) (la lb : BitVec 7) (bsel : BitVec 1) (n : Nat) :
    (assemble op la lb bsel).getLsbD n =
      if n < 8 then op.getLsbD n
      else if n < 15 then la.getLsbD (n - 8)
      else if n < 16 then false
      else if n < 23 then lb.getLsbD (n - 16)
      else if n < 24 then bsel.getLsbD (n - 23)
      else false := by
  unfold assemble
  simp only [BitVec.getLsbD_append, BitVec.getLsbD_zero, Nat.sub_sub]
  repeat' split
  all_goals first
    | rfl
    | (exfalso; omega)

/-- Bit `i` of RSV (R61): bits 7..0 are the word's bits 31:24, bit 8 is its bit 15. -/
theorem cmdRsv_getLsbD (v : Word32) (i : Nat) (h : i < 9) :
    (cmdRsv v).getLsbD i = if i < 8 then v.getLsbD (24 + i) else v.getLsbD 15 := by
  simp only [cmdRsv, BitVec.getLsbD_append, BitVec.getLsbD_extractLsb']
  split
  · next h8 => simp [h8]
  · obtain rfl : i = 8 := by omega
    simp

@[simp] theorem cmdOp_assemble (op : BitVec 8) (la lb : BitVec 7) (bsel : BitVec 1) :
    cmdOp (assemble op la lb bsel) = op := by
  apply BitVec.eq_of_getLsbD_eq
  intro i hi
  rw [cmdOp, BitVec.getLsbD_extractLsb', assemble_getLsbD]
  simp [hi]

@[simp] theorem cmdLA_assemble (op : BitVec 8) (la lb : BitVec 7) (bsel : BitVec 1) :
    cmdLA (assemble op la lb bsel) = la := by
  apply BitVec.eq_of_getLsbD_eq
  intro i hi
  rw [cmdLA, BitVec.getLsbD_extractLsb', assemble_getLsbD]
  simp [hi, show 8 + i < 15 by omega]

@[simp] theorem cmdLB_assemble (op : BitVec 8) (la lb : BitVec 7) (bsel : BitVec 1) :
    cmdLB (assemble op la lb bsel) = lb := by
  apply BitVec.eq_of_getLsbD_eq
  intro i hi
  rw [cmdLB, BitVec.getLsbD_extractLsb', assemble_getLsbD]
  simp [hi, show ¬ (16 + i < 8) by omega, show ¬ (16 + i < 15) by omega, show (16 + i < 23) by omega]

@[simp] theorem cmdBsel_assemble (op : BitVec 8) (la lb : BitVec 7) (bsel : BitVec 1) :
    cmdBsel (assemble op la lb bsel) = bsel := by
  apply BitVec.eq_of_getLsbD_eq
  intro i hi
  obtain rfl : i = 0 := by omega
  rw [cmdBsel, BitVec.getLsbD_extractLsb', assemble_getLsbD]
  simp

@[simp] theorem cmdRsv_assemble (op : BitVec 8) (la lb : BitVec 7) (bsel : BitVec 1) :
    cmdRsv (assemble op la lb bsel) = 0 := by
  apply BitVec.eq_of_getLsbD_eq
  intro i hi
  rw [cmdRsv_getLsbD _ _ hi, assemble_getLsbD, assemble_getLsbD]
  split
  · simp [show ¬ (24 + i < 8) by omega, show ¬ (24 + i < 15) by omega, show ¬ (24 + i < 16) by omega,
      show ¬ (24 + i < 23) by omega]
  · simp

/-- A word with no reserved bit set is the word of its fields (R61). -/
theorem assemble_fields (v : Word32) (h : cmdRsv v = 0) :
    assemble (cmdOp v) (cmdLA v) (cmdLB v) (cmdBsel v) = v := by
  have hr : ∀ i, (cmdRsv v).getLsbD i = false := by simp [h]
  apply BitVec.eq_of_getLsbD_eq
  intro n hn
  have hlow : v.getLsbD 15 = false := by have := hr 8; rwa [cmdRsv_getLsbD _ _ (by omega), if_neg (by omega)] at this
  have hhigh : ∀ i, i < 8 → v.getLsbD (24 + i) = false := by
    intro i hi
    simpa [cmdRsv_getLsbD _ i (by omega), hi] using hr i
  simp only [assemble_getLsbD, cmdOp, cmdLA, cmdLB, cmdBsel, BitVec.getLsbD_extractLsb']
  split
  · next h1 => simp [h1]
  · split
    · next h1 h2 => simp [show n - 8 < 7 by omega, show 8 + (n - 8) = n by omega]
    · split
      · obtain rfl : n = 15 := by omega
        exact hlow.symm
      · split
        · next h1 h2 h3 h4 => simp [show n - 16 < 7 by omega, show 16 + (n - 16) = n by omega]
        · split
          · next h1 h2 h3 h4 h5 => simp [show n - 23 < 1 by omega, show 23 + (n - 23) = n by omega]
          · next h1 h2 h3 h4 h5 =>
            simpa [show 24 + (n - 24) = n by omega] using (hhigh (n - 24) (by omega)).symm

/-! ## The decoder -/

/-- The opcodes of R63. -/
theorem Instr.opcode_mem (i : Instr) : i.opcode ∈ opcodeTable.map (·.opcode) := by
  cases i <;> simp [Instr.opcode, opcodeTable]

theorem encode_eq_assemble (i : Instr) :
    ∃ la lb bsel, encode i = assemble i.opcode la lb bsel := by
  cases i <;> exact ⟨_, _, _, rfl⟩

@[simp] theorem operandBOfBsel_bsel (b : OperandB) : operandBOfBsel b.bsel = b := by cases b <;> rfl

@[simp] theorem bsel_operandBOfBsel (b : BitVec 1) : (operandBOfBsel b).bsel = b := by
  revert b; decide

/-- A command without fields, accepted: its word is its opcode and zeros (R63). -/
theorem decodePlain_ok {v : Word32} {i j : Instr} (h : decodePlain v i = .ok j) (hr : cmdRsv v = 0)
    (ho : cmdOp v = i.opcode) (he : encode i = assemble i.opcode 0 0 0) : j = i ∧ encode j = v := by
  unfold decodePlain at h
  split at h
  · next hz =>
    obtain ⟨ha, hb, hs⟩ := hz
    cases h
    exact ⟨rfl, by rw [he, ← ho, ← ha, ← hs, ha, ← assemble_fields v hr]; simp [ha, hb, hs]⟩
  · cases h

/-- A command with a length A, accepted: its word is its opcode and that length (R63). -/
theorem decodeLA_ok {v : Word32} {i : Nat → Instr} {j : Instr} (h : decodeLA v i = .ok j)
    (hr : cmdRsv v = 0) (ho : ∀ n, cmdOp v = (i n).opcode)
    (he : ∀ n, encode (i n) = assemble (i n).opcode (BitVec.ofNat 7 n) 0 0) :
    j = i (cmdLA v).toNat ∧ encode j = v := by
  unfold decodeLA at h
  split at h
  · next hz =>
    obtain ⟨hb, hs⟩ := hz
    cases h
    refine ⟨rfl, ?_⟩
    conv_rhs => rw [← assemble_fields v hr, ho (cmdLA v).toNat, hb, hs]
    rw [he]
    simp
  · cases h

theorem decodePlain_error (v : Word32) (i : Instr) :
    (∃ e, decodePlain v i = .error e) ↔ ¬ (cmdLA v = 0 ∧ cmdLB v = 0 ∧ cmdBsel v = 0) := by
  unfold decodePlain
  split <;> simp_all

theorem decodeLA_error (v : Word32) (i : Nat → Instr) :
    (∃ e, decodeLA v i = .error e) ↔ ¬ (cmdLB v = 0 ∧ cmdBsel v = 0) := by
  unfold decodeLA
  split <;> simp_all

/-- What the decoder accepts: no reserved bit set, the command's own opcode, and the command's own word. -/
theorem decode_ok {v : Word32} {i : Instr} (h : decode v = .ok i) :
    cmdRsv v = 0 ∧ cmdOp v = i.opcode ∧ i.wellFormed = true ∧ encode i = v := by
  unfold decode at h
  split at h
  · cases h
  next hr =>
  have hr : cmdRsv v = 0 := by simpa using hr
  have fits : ∀ x : BitVec 7, fitsLengthField x.toNat = true := by
    intro x; simp [fitsLengthField, x.isLt]
  refine ⟨hr, ?_⟩
  split at h
  · next ho => obtain ⟨rfl, he⟩ := decodePlain_ok h hr ho rfl; exact ⟨ho, rfl, he⟩
  split at h
  · next ho => obtain ⟨rfl, he⟩ := decodePlain_ok h hr ho rfl; exact ⟨ho, rfl, he⟩
  split at h
  · next ho =>
    obtain ⟨rfl, he⟩ := decodeLA_ok h hr (fun _ => ho) (fun _ => rfl); exact ⟨ho, fits _, he⟩
  split at h
  · next ho => obtain ⟨rfl, he⟩ := decodePlain_ok h hr ho rfl; exact ⟨ho, rfl, he⟩
  split at h
  · next ho => obtain ⟨rfl, he⟩ := decodePlain_ok h hr ho rfl; exact ⟨ho, rfl, he⟩
  split at h
  · next ho =>
    obtain ⟨rfl, he⟩ := decodeLA_ok h hr (fun _ => ho) (fun _ => rfl); exact ⟨ho, fits _, he⟩
  split at h
  · next ho => obtain ⟨rfl, he⟩ := decodePlain_ok h hr ho rfl; exact ⟨ho, rfl, he⟩
  split at h
  · next ho => obtain ⟨rfl, he⟩ := decodePlain_ok h hr ho rfl; exact ⟨ho, rfl, he⟩
  split at h
  · next ho =>
    cases h
    refine ⟨ho, by simp [Instr.wellFormed, fits], ?_⟩
    conv_rhs => rw [← assemble_fields v hr, ho]
    simp [encode]
  · cases h

end Sys2Proof
end

