-- ==== Sys2Proof/Laws/Ops.lean ====
section
/-! SUPPORT. The shared operations: how a command ends, what the byte-order helpers hold byte by byte. -/

namespace Sys2Proof.Machine

/-! ## How a command ends -/

/-- Everything `runCommand` can do: complete with the effect when no check fails, or raise the first failing check's error. -/
theorem runCommand_cases {checks : List (Bool × ErrCode)} {effect : State → State} {s t : State}
    (h : runCommand checks effect s = .next t) :
    (firstError checks = none ∧ t = complete (effect s)) ∨
      ∃ c, firstError checks = some c ∧ t = raiseError c s := by
  unfold runCommand at h
  split at h
  · next hc => exact .inl ⟨hc, by cases h; rfl⟩
  · next c hc => exact .inr ⟨c, hc, by cases h; rfl⟩

/-- Everything `runCompare` can do. -/
theorem runCompare_cases {checks : List (Bool × ErrCode)} {effect : State → State} {s t : State}
    (h : runCompare checks effect s = .next t) :
    (firstError checks = none ∧ t = complete (effect s)) ∨
      ∃ c, firstError checks = some c ∧ t = raiseCompareError c s := by
  unfold runCompare at h
  split at h
  · next hc => exact .inl ⟨hc, by cases h; rfl⟩
  · next c hc => exact .inr ⟨c, hc, by cases h; rfl⟩

theorem runCommand_of_none {checks : List (Bool × ErrCode)} {effect : State → State} {s : State}
    (h : firstError checks = none) : runCommand checks effect s = .next (complete (effect s)) := by
  simp [runCommand, h]

theorem runCommand_of_some {checks : List (Bool × ErrCode)} {effect : State → State} {s : State} {c : ErrCode}
    (h : firstError checks = some c) : runCommand checks effect s = .next (raiseError c s) := by
  simp [runCommand, h]

theorem runCompare_of_none {checks : List (Bool × ErrCode)} {effect : State → State} {s : State}
    (h : firstError checks = none) : runCompare checks effect s = .next (complete (effect s)) := by
  simp [runCompare, h]

theorem runCompare_of_some {checks : List (Bool × ErrCode)} {effect : State → State} {s : State} {c : ErrCode}
    (h : firstError checks = some c) : runCompare checks effect s = .next (raiseCompareError c s) := by
  simp [runCompare, h]

@[simp] theorem firstError_nil : firstError [] = none := rfl

@[simp] theorem firstError_cons (f : Bool) (c : ErrCode) (rest : List (Bool × ErrCode)) :
    firstError ((f, c) :: rest) = if f then some c else firstError rest := rfl

/-! ## The error codes -/

@[simp] theorem ErrCode.code_ne_zero (c : ErrCode) : c.code ≠ 0 := by cases c <;> decide

theorem ErrCode.code_injective {c d : ErrCode} (h : c.code = d.code) : c = d := by
  revert h; cases c <;> cases d <;> decide

/-! ## Bytes -/

@[simp] theorem blockOf_getElem (bs : List Byte) (k : Nat) (h : k < 64) : (blockOf bs)[k] = bs.getD k 0 := by
  simp [blockOf]

theorem blockOf_toList {bs : List Byte} (h : bs.length = 64) : (blockOf bs).toList = bs := by
  apply List.ext_getElem
  · simp [h]
  · intro k h₁ h₂
    simp [h₂]

@[simp] theorem blockOf_block (b : Block) : blockOf b.toList = b := by
  apply Vector.ext
  intro k hk
  simp [List.getD_eq_getElem?_getD, hk]

@[simp] theorem le64Bytes_length (v : Word) : (le64Bytes v).length = 8 := by simp [le64Bytes]

@[simp] theorem be64Bytes_length (v : Word) : (be64Bytes v).length = 8 := by simp [be64Bytes]

@[simp] theorem digestBytes_length (w : Words) : (digestBytes w).length = 32 := by simp [digestBytes]

theorem le64Bytes_getD (v : Word) (t : Nat) (h : t < 8) : (le64Bytes v).getD t 0 = v.extractLsb' (8 * t) 8 := by
  simp [le64Bytes, List.getD_eq_getElem?_getD, h]

theorem be64Bytes_getD (v : Word) (t : Nat) (h : t < 8) : (be64Bytes v).getD t 0 = v.extractLsb' (56 - 8 * t) 8 := by
  simp [be64Bytes, List.getD_eq_getElem?_getD, h]

/-- Byte `8i + t` of the digest is `words[i][8t+7:8t]` (R83). -/
theorem digestBytes_getD (w : Words) (i : Fin 4) (t : Nat) (h : t < 8) :
    (digestBytes w).getD (8 * i.val + t) 0 = w[i].extractLsb' (8 * t) 8 := by
  have key : ∀ (a b : List Byte) (n : Nat), a.length = 8 → (a ++ b).getD (8 + n) 0 = b.getD n 0 := by
    intro a b n ha
    simp [List.getD_eq_getElem?_getD, List.getElem?_append_right, ha]
  have low : ∀ (a b : List Byte) (n : Nat), a.length = 8 → n < 8 → (a ++ b).getD n 0 = a.getD n 0 := by
    intro a b n ha hn
    simp [List.getD_eq_getElem?_getD, List.getElem?_append_left, ha, hn]
  unfold digestBytes
  simp only [List.append_assoc]
  match i with
  | 0 =>
    rw [show 8 * ((0 : Fin 4) : Nat) + t = t by simp, low _ _ _ (le64Bytes_length _) h, le64Bytes_getD _ _ h]
    rfl
  | 1 =>
    rw [show 8 * ((1 : Fin 4) : Nat) + t = 8 + t from rfl, key _ _ _ (le64Bytes_length _),
      low _ _ _ (le64Bytes_length _) h, le64Bytes_getD _ _ h]
    rfl
  | 2 =>
    rw [show 8 * ((2 : Fin 4) : Nat) + t = 8 + (8 + t) by simp; omega, key _ _ _ (le64Bytes_length _),
      key _ _ _ (le64Bytes_length _), low _ _ _ (le64Bytes_length _) h, le64Bytes_getD _ _ h]
    rfl
  | 3 =>
    rw [show 8 * ((3 : Fin 4) : Nat) + t = 8 + (8 + (8 + t)) by simp; omega, key _ _ _ (le64Bytes_length _),
      key _ _ _ (le64Bytes_length _), key _ _ _ (le64Bytes_length _), le64Bytes_getD _ _ h]
    rfl

/-- Byte `k` of a window after a write to register `m` (R35, R47). -/
theorem setLane_getElem (b : Block) (m : Fin 16) (v : Word32) (k : Nat) (h : k < 64) :
    (setLane b m v)[k] = if k / 4 = m.val then v.extractLsb' (8 * (k % 4)) 8 else b[k] := by
  simp [setLane]

end Sys2Proof.Machine
end

