-- ==== Sys2Proof/Laws/Streaming.lean ====
section
/-! SUPPORT. The streaming engine: what absorbing bytes leaves, for any number of bytes, and that whole blocks are compressed in
order (41_stream.md R79..R84, R90). -/

namespace Sys2Proof.Machine

/-! ## Blocks of a byte string -/

theorem blockOf_append {a : List Byte} (b : List Byte) (h : a.length = 64) : blockOf (a ++ b) = blockOf a := by
  apply Vector.ext
  intro k hk
  simp [List.getD_eq_getElem?_getD, List.getElem?_append_left, h, hk]

/-- The first block of a string, and the blocks of the rest. -/
theorem blocksOf_append {a : List Byte} (b : List Byte) (h : a.length = 64) :
    blocksOf (a ++ b) = blockOf a :: blocksOf b := by
  have hn : ((a ++ b).length + 63) / 64 = (b.length + 63) / 64 + 1 := by simp; omega
  rw [blocksOf, hn, List.range_succ_eq_map]
  simp only [List.map_cons, List.map_map, Nat.mul_zero, List.drop_zero, blockOf_append b h]
  refine congrArg (blockOf a :: ·) (List.map_congr_left fun n _ => ?_)
  have hdrop : (a ++ b).drop (64 * (n + 1)) = b.drop (64 * n) := by
    rw [List.drop_append, List.drop_eq_nil_of_le (by omega), List.nil_append, h]
    congr 1
  exact congrArg blockOf hdrop

theorem blocksOf_single {a : List Byte} (h : a.length = 64) : blocksOf a = [blockOf a] := by
  simpa [blocksOf] using blocksOf_append [] h

theorem compressAll_append (k : Word) (w : Words) {a : List Byte} (b : List Byte) (h : a.length = 64) :
    compressAll k w (a ++ b) = compressAll k (compress k w (blockOf a)) b := by
  simp [compressAll, blocksOf_append b h]

theorem compressAll_single (k : Word) (w : Words) {a : List Byte} (h : a.length = 64) :
    compressAll k w a = compress k w (blockOf a) := by
  simp [compressAll, blocksOf_single h]

/-! ## Absorbing bytes -/

/-- `update` consumes its bytes one at a time, in order (R90). -/
theorem feed_append (k : Word) (e : Absorber) (a b : List Byte) : feed k e (a ++ b) = feed k (feed k e a) b := by
  simp [feed]

@[simp] theorem feed_nil (k : Word) (e : Absorber) : feed k e [] = e := rfl

theorem feed_concat (k : Word) (e : Absorber) (a : List Byte) (b : Byte) :
    feed k e (a ++ [b]) = feedByte k (feed k e a) b := by
  simp [feed]

theorem feedByte_of_room (k : Word) (e : Absorber) (b : Byte) (h : e.plen.val + 1 < 64) :
    feedByte k e b = ⟨e.words, e.pend.set e.plen b, ⟨e.plen.val + 1, h⟩⟩ := by
  simp [feedByte, h]

theorem feedByte_of_full (k : Word) (e : Absorber) (b : Byte) (h : e.plen.val = 63) :
    feedByte k e b = ⟨compress k e.words (e.pend.set e.plen b), zeroBlock, 0⟩ := by
  simp [feedByte, h]

/-- `PLEN` counts bytes modulo 64 (R38). -/
theorem feedByte_plen (k : Word) (e : Absorber) (b : Byte) :
    (feedByte k e b).plen.val = (e.plen.val + 1) % 64 := by
  by_cases h : e.plen.val + 1 < 64
  · rw [feedByte_of_room k e b h, Nat.mod_eq_of_lt h]
  · have h63 : e.plen.val = 63 := by omega
    rw [feedByte_of_full k e b h63]
    simp [h63]

theorem feed_plen (k : Word) (e : Absorber) (data : List Byte) :
    (feed k e data).plen.val = (e.plen.val + data.length) % 64 := by
  induction data using List.reverseRecOn with
  | nil => simp [Nat.mod_eq_of_lt]
  | append_singleton as b ih => rw [feed_concat, feedByte_plen, ih]; simp; omega

/-- Fewer bytes than fill the buffer: they are stored from `PEND[PLEN]` on, and nothing is compressed. -/
theorem feed_short (k : Word) (e : Absorber) (data : List Byte) (h : e.plen.val + data.length < 64) :
    feed k e data =
      ⟨e.words,
        Vector.ofFn fun i => if e.plen.val ≤ i.val ∧ i.val < e.plen.val + data.length
          then data.getD (i.val - e.plen.val) 0 else e.pend[i],
        ⟨e.plen.val + data.length, h⟩⟩ := by
  induction data using List.reverseRecOn with
  | nil =>
    have : (Vector.ofFn fun i : Fin 64 => if e.plen.val ≤ i.val ∧ i.val < e.plen.val + ([] : List Byte).length
        then ([] : List Byte).getD (i.val - e.plen.val) 0 else e.pend[i]) = e.pend := by
      apply Vector.ext
      intro i hi
      simp only [Vector.getElem_ofFn, List.length_nil, Nat.add_zero]
      rw [if_neg (by omega)]
      rfl
    rw [this]
    rfl
  | append_singleton as b ih =>
    have hl : (as ++ [b]).length = as.length + 1 := by simp
    have h' : e.plen.val + as.length < 64 := by omega
    rw [feed_concat, ih h', feedByte_of_room _ _ _ (by simp; omega)]
    simp only [Absorber.mk.injEq, Fin.mk.injEq, true_and]
    refine ⟨?_, by omega⟩
    apply Vector.ext
    intro i hi
    simp only [Vector.getElem_set, Vector.getElem_ofFn, hl, Fin.getElem_fin]
    by_cases hi1 : e.plen.val + as.length = i
    · rw [if_pos hi1, if_pos (by omega)]
      simp [List.getD_eq_getElem?_getD, ← hi1]
    · rw [if_neg hi1]
      by_cases hi2 : e.plen.val ≤ i ∧ i < e.plen.val + as.length
      · rw [if_pos hi2, if_pos (by omega)]
        simp [List.getD_eq_getElem?_getD, List.getElem?_append_left (show i - e.plen.val < as.length by omega)]
      · rw [if_neg hi2, if_neg (by omega)]

/-- Exactly the bytes that fill the buffer: one compression of the pending bytes and the new ones, and an empty buffer. -/
theorem feed_fill (k : Word) (e : Absorber) (data : List Byte) (h : e.plen.val + data.length = 64) :
    feed k e data = ⟨compress k e.words (blockOf (e.pend.toList.take e.plen.val ++ data)), zeroBlock, 0⟩ := by
  have hp := e.plen.isLt
  rcases List.eq_nil_or_concat' data with rfl | ⟨as, b, rfl⟩
  · simp at h; omega
  have hl : (as ++ [b]).length = as.length + 1 := by simp
  have h' : e.plen.val + as.length < 64 := by omega
  rw [feed_concat, feed_short k e as h', feedByte_of_full _ _ _ (by simp; omega)]
  simp only [Absorber.mk.injEq, and_true]
  refine congrArg (compress k e.words) (Vector.ext fun i hi => ?_)
  simp only [Vector.getElem_set, Vector.getElem_ofFn, blockOf_getElem, Fin.getElem_fin]
  have hlen : (e.pend.toList.take e.plen.val).length = e.plen.val := by simp
  by_cases hi1 : e.plen.val ≤ i
  · have hr : (e.pend.toList.take e.plen.val ++ (as ++ [b])).getD i 0 = (as ++ [b]).getD (i - e.plen.val) 0 := by
      simp only [List.getD_eq_getElem?_getD]
      rw [List.getElem?_append_right (by omega), hlen]
    rw [hr]
    by_cases hi2 : e.plen.val + as.length = i
    · simp [List.getD_eq_getElem?_getD, ← hi2]
    · rw [if_neg hi2, if_pos (by omega)]
      simp [List.getD_eq_getElem?_getD, List.getElem?_append_left (show i - e.plen.val < as.length by omega)]
  · rw [if_neg (by omega), if_neg (by omega)]
    have : (e.pend.toList.take e.plen.val ++ (as ++ [b])).getD i 0 = e.pend.toList.getD i 0 := by
      simp only [List.getD_eq_getElem?_getD]
      rw [List.getElem?_append_left (by omega), List.getElem?_take_of_lt (by omega)]
    rw [this]
    simp [List.getD_eq_getElem?_getD, hi]

/-- Bytes that end on a block boundary: every block of the pending bytes and the new ones is compressed in order (R84). -/
theorem feed_blocks (k : Word) (e : Absorber) (data : List Byte) (hd : data ≠ [])
    (h : (e.plen.val + data.length) % 64 = 0) :
    feed k e data = ⟨compressAll k e.words (e.pend.toList.take e.plen.val ++ data), zeroBlock, 0⟩ := by
  have hp := e.plen.isLt
  have hpos : 0 < data.length := List.length_pos_iff.mpr hd
  have hlen : (e.pend.toList.take e.plen.val).length = e.plen.val := by simp
  by_cases h64 : e.plen.val + data.length = 64
  · rw [feed_fill k e data h64, compressAll_single _ _ (by rw [List.length_append, hlen, h64])]
  · have hta : (data.take (64 - e.plen.val)).length = 64 - e.plen.val := by simp; omega
    have hdr : (data.drop (64 - e.plen.val)).length = data.length - (64 - e.plen.val) := by simp
    have hne : data.drop (64 - e.plen.val) ≠ [] := by
      intro h0
      rw [h0, List.length_nil] at hdr
      omega
    have hsplit : data = data.take (64 - e.plen.val) ++ data.drop (64 - e.plen.val) := by simp
    calc feed k e data
        = feed k (feed k e (data.take (64 - e.plen.val))) (data.drop (64 - e.plen.val)) := by
          rw [← feed_append, ← hsplit]
      _ = ⟨compressAll k e.words
            ((e.pend.toList.take e.plen.val ++ data.take (64 - e.plen.val)) ++ data.drop (64 - e.plen.val)),
            zeroBlock, 0⟩ := by
          rw [feed_fill k e _ (by omega),
            feed_blocks k _ (data.drop (64 - e.plen.val)) hne (by simp only [Fin.val_zero]; omega),
            compressAll_append k e.words (a := e.pend.toList.take e.plen.val ++ data.take (64 - e.plen.val)) _
              (by rw [List.length_append, hlen, hta]; omega)]
          simp only [Fin.val_zero, List.take_zero, List.nil_append]
      _ = _ := by rw [List.append_assoc, ← hsplit]
termination_by data.length
decreasing_by omega

/-- Absorbing keeps the bytes at and above `PLEN` zero (R39). -/
theorem feed_clear (k : Word) (e : Absorber) (data : List Byte) (h : ∀ i : Fin 64, e.plen.val ≤ i.val → e.pend[i] = 0) :
    ∀ i : Fin 64, (feed k e data).plen.val ≤ i.val → (feed k e data).pend[i] = 0 := by
  induction data using List.reverseRecOn with
  | nil => simpa using h
  | append_singleton as b ih =>
    intro i hi
    rw [feed_concat] at hi ⊢
    by_cases hr : (feed k e as).plen.val + 1 < 64
    · rw [feedByte_of_room _ _ _ hr] at hi ⊢
      have : ¬ ((feed k e as).plen.val = i.val) := by simp at hi; omega
      simp only [Fin.getElem_fin, Vector.getElem_set, this, if_false]
      exact ih i (by simp at hi; omega)
    · rw [feedByte_of_full _ _ _ (by omega)]
      simp

/-! ## `update` -/

theorem update_of_finalized {s : State} (data : List Byte) (h : s.estate = .finalized) : update data s = s := by
  simp [update, h]

theorem update_of_ne {s : State} (data : List Byte) (h : s.estate ≠ .finalized) :
    update data s =
      { s.withAbsorber (feed s.params.k s.absorber data) with
        len := s.len + BitVec.ofNat 64 data.length
        estate := s.estate.absorbed } := by
  simp [update, h]

@[simp] theorem EState.absorbed_absorbed (e : EState) : e.absorbed.absorbed = e.absorbed := by cases e <;> rfl

theorem EState.absorbed_ne_finalized {e : EState} (h : e ≠ .finalized) : e.absorbed ≠ .finalized := by
  revert h; cases e <;> decide

@[simp] theorem absorber_withAbsorber (s : State) (e : Absorber) : (s.withAbsorber e).absorber = e := rfl

/-- The absorbed state depends only on the concatenation of the data (R90). -/
theorem update_update (a b : List Byte) (s : State) : update b (update a s) = update (a ++ b) s := by
  by_cases h : s.estate = .finalized
  · simp [update_of_finalized, h]
  · rw [update_of_ne a h, update_of_ne (a ++ b) h, update_of_ne b (EState.absorbed_ne_finalized h)]
    simp [State.withAbsorber, State.absorber, feed_append, BitVec.add_assoc, BitVec.ofNat_add]

/-! ## What `update` and `finalize` leave alone -/

@[simp] theorem update_mlen (data : List Byte) (s : State) : (update data s).mlen = s.mlen := by
  unfold update; split <;> rfl

@[simp] theorem update_mode (data : List Byte) (s : State) : (update data s).mode = s.mode := by
  unfold update; split <;> rfl

@[simp] theorem update_key (data : List Byte) (s : State) : (update data s).key = s.key := by
  unfold update; split <;> rfl

@[simp] theorem update_keyValid (data : List Byte) (s : State) : (update data s).keyValid = s.keyValid := by
  unfold update; split <;> rfl

@[simp] theorem update_cmpEq (data : List Byte) (s : State) : (update data s).cmpEq = s.cmpEq := by
  unfold update; split <;> rfl

@[simp] theorem update_cmpValid (data : List Byte) (s : State) : (update data s).cmpValid = s.cmpValid := by
  unfold update; split <;> rfl

@[simp] theorem update_err (data : List Byte) (s : State) : (update data s).err = s.err := by
  unfold update; split <;> rfl

@[simp] theorem update_lastErr (data : List Byte) (s : State) : (update data s).lastErr = s.lastErr := by
  unfold update; split <;> rfl

@[simp] theorem update_busy (data : List Byte) (s : State) : (update data s).busy = s.busy := by
  unfold update; split <;> rfl

@[simp] theorem update_cmdLatch (data : List Byte) (s : State) : (update data s).cmdLatch = s.cmdLatch := by
  unfold update; split <;> rfl

@[simp] theorem update_din (data : List Byte) (s : State) : (update data s).din = s.din := by
  unfold update; split <;> rfl

@[simp] theorem update_cmpb (data : List Byte) (s : State) : (update data s).cmpb = s.cmpb := by
  unfold update; split <;> rfl

@[simp] theorem update_params (data : List Byte) (s : State) : (update data s).params = s.params := by
  unfold update; split <;> rfl

@[simp] theorem update_turns (data : List Byte) (s : State) : (update data s).turns = s.turns := by
  unfold update; split <;> rfl

@[simp] theorem update_resps (data : List Byte) (s : State) : (update data s).resps = s.resps := by
  unfold update; split <;> rfl

@[simp] theorem finalize_mode (s : State) : (finalize s).mode = s.mode := by simp [finalize]

@[simp] theorem finalize_key (s : State) : (finalize s).key = s.key := by simp [finalize]

@[simp] theorem finalize_keyValid (s : State) : (finalize s).keyValid = s.keyValid := by simp [finalize]

@[simp] theorem finalize_cmpEq (s : State) : (finalize s).cmpEq = s.cmpEq := by simp [finalize]

@[simp] theorem finalize_cmpValid (s : State) : (finalize s).cmpValid = s.cmpValid := by simp [finalize]

@[simp] theorem finalize_err (s : State) : (finalize s).err = s.err := by simp [finalize]

@[simp] theorem finalize_lastErr (s : State) : (finalize s).lastErr = s.lastErr := by simp [finalize]

@[simp] theorem finalize_busy (s : State) : (finalize s).busy = s.busy := by simp [finalize]

@[simp] theorem finalize_cmdLatch (s : State) : (finalize s).cmdLatch = s.cmdLatch := by simp [finalize]

@[simp] theorem finalize_din (s : State) : (finalize s).din = s.din := by simp [finalize]

@[simp] theorem finalize_cmpb (s : State) : (finalize s).cmpb = s.cmpb := by simp [finalize]

@[simp] theorem finalize_params (s : State) : (finalize s).params = s.params := by simp [finalize]

@[simp] theorem finalize_turns (s : State) : (finalize s).turns = s.turns := by simp [finalize]

@[simp] theorem finalize_resps (s : State) : (finalize s).resps = s.resps := by simp [finalize]

/-! ## Padding -/

/-- R81: `|pad(L, p)| = 9 + ((55 - p) mod 64)`. -/
@[simp] theorem pad_length (u : LenUnit) (l : Word) (p : Nat) : (pad u l p).length = 9 + (119 - p) % 64 := by
  simp [pad]; omega

theorem pad_ne_nil (u : LenUnit) (l : Word) (p : Nat) : pad u l p ≠ [] := by simp [pad]

/-- R81: the padded message is a whole number of blocks. -/
theorem pad_aligns (u : LenUnit) (l : Word) (p : Nat) (h : p < 64) : (p + (pad u l p).length) % 64 = 0 := by
  simp; omega

/-! ## `finalize` -/

/-- Everything `finalize` does outside FINALIZED (R82). -/
theorem finalize_of_ne {s : State} (h : s.estate ≠ .finalized) :
    finalize s =
      { s with
        words := compressAll s.params.k s.words
          (s.pend.toList.take s.plen.val ++ pad s.params.lenUnit s.len s.plen.val)
        pend := zeroBlock
        plen := 0
        len := s.len + BitVec.ofNat 64 (9 + (119 - s.plen.val) % 64)
        mlen := s.len
        estate := .finalized } := by
  unfold finalize
  rw [update_of_ne _ (by simpa using h)]
  have hf := feed_blocks s.params.k s.absorber (pad s.params.lenUnit s.len s.plen.val) (pad_ne_nil _ _ _)
    (pad_aligns _ _ _ s.plen.isLt)
  simp only [State.absorber, State.withAbsorber] at hf ⊢
  simp [hf]

end Sys2Proof.Machine
end

