-- ==== Sys2Proof/Laws/Hmac.lean ====
section
/-! SUPPORT. The HMAC wrapper's shared operations: what HMAC_START and the HMAC finish leave (42_hmac.md R94, R97, R98). -/

namespace Sys2Proof.Machine

/-- R94, byte by byte. -/
@[simp] theorem ipadBlock_getElem (key : Block) (k : Nat) (h : k < 64) : (ipadBlock key)[k] = key[k] ^^^ 0x36#8 := by
  simp [ipadBlock, ipadByte]

/-- R94, byte by byte. -/
@[simp] theorem opadBlock_getElem (key : Block) (k : Nat) (h : k < 64) : (opadBlock key)[k] = key[k] ^^^ 0x5C#8 := by
  simp [opadBlock, opadByte]

/-- One whole block absorbed at a block boundary is one compression. -/
theorem feed_block (k : Word) (w : Words) (pend b : Block) :
    feed k ⟨w, pend, 0⟩ b.toList = ⟨compress k w b, zeroBlock, 0⟩ := by
  rw [feed_fill k _ _ (by simp)]
  simp

/-- Everything HMAC_START's effect does (R97): one compression of `ipad_block`. -/
theorem hmacStartEffect_eq (s : State) :
    hmacStartEffect s =
      { s with
        words := compress s.params.k s.params.iv (ipadBlock s.key)
        pend := zeroBlock
        plen := 0
        len := 64
        mlen := 0
        estate := .absorbing
        mode := .hmac } := by
  unfold hmacStartEffect
  rw [update_of_ne _ (by simp)]
  simp only [State.absorber, State.withAbsorber, startHash, feed_block]
  simp [EState.absorbed]

/-- The outer message `opad_block ‖ inner` (R98) is 96 bytes. -/
theorem outerMessage_length (key : Block) (inner : List Byte) (h : inner.length = 32) :
    ((opadBlock key).toList ++ inner).length = 96 := by simp [h]

/-- Hashing a 96-byte message that starts with a whole block, from `IV` (R98): `finalize` of two `update`s is the digest function's
own loop. -/
theorem finalize_outer {s : State} (b : Block) (inner : List Byte) (h : inner.length = 32) :
    finalize (update inner (update b.toList (startHash s))) =
      { s with
        words := hashWords s.params (b.toList ++ inner)
        pend := zeroBlock
        plen := 0
        len := 128
        mlen := 96
        estate := .finalized } := by
  have hlen : (b.toList ++ inner).length = 96 := by simp [h]
  rw [update_update]
  have hu : update (b.toList ++ inner) (startHash s) =
      { startHash s with
        words := (feed s.params.k ⟨s.params.iv, zeroBlock, 0⟩ (b.toList ++ inner)).words
        pend := (feed s.params.k ⟨s.params.iv, zeroBlock, 0⟩ (b.toList ++ inner)).pend
        plen := (feed s.params.k ⟨s.params.iv, zeroBlock, 0⟩ (b.toList ++ inner)).plen
        len := 96
        estate := .absorbing } := by
    rw [update_of_ne _ (by simp)]
    simp [State.absorber, State.withAbsorber, startHash, h, EState.absorbed]
  have hp : (feed s.params.k ⟨s.params.iv, zeroBlock, 0⟩ (b.toList ++ inner)).plen.val = 32 := by
    rw [feed_plen, hlen]; simp
  have hall := feed_blocks s.params.k ⟨s.params.iv, zeroBlock, 0⟩
    ((b.toList ++ inner) ++ pad s.params.lenUnit 96 32) (by simp [pad]) (by simp [h])
  have hsplit := feed_blocks s.params.k (feed s.params.k ⟨s.params.iv, zeroBlock, 0⟩ (b.toList ++ inner))
    (pad s.params.lenUnit 96 32) (pad_ne_nil _ _ _) (by rw [hp]; simp)
  rw [feed_append, hsplit] at hall
  have hw := congrArg Absorber.words hall
  rw [hu, finalize_of_ne (by simp)]
  simp only [startHash, hp, hashWords, hlen] at hw ⊢
  rw [hw]
  simp

/-- Everything the HMAC finish does outside FINALIZED (R98). -/
theorem hmacFinish_of_ne {s : State} (h : s.estate ≠ .finalized) :
    hmacFinish s =
      { s with
        words := hashWords s.params ((opadBlock s.key).toList ++ digestBytes
          (compressAll s.params.k s.words
            (s.pend.toList.take s.plen.val ++ pad s.params.lenUnit s.len s.plen.val)))
        pend := zeroBlock
        plen := 0
        len := 128
        mlen := 96
        estate := .finalized } := by
  unfold hmacFinish
  rw [finalize_outer _ _ (by simp), finalize_of_ne h]

/-! ## What the finish of an HMAC leaves alone -/

@[simp] theorem hmacFinish_mode (s : State) : (hmacFinish s).mode = s.mode := by simp [hmacFinish]

@[simp] theorem hmacFinish_key (s : State) : (hmacFinish s).key = s.key := by simp [hmacFinish]

@[simp] theorem hmacFinish_keyValid (s : State) : (hmacFinish s).keyValid = s.keyValid := by simp [hmacFinish]

@[simp] theorem hmacFinish_cmpEq (s : State) : (hmacFinish s).cmpEq = s.cmpEq := by simp [hmacFinish]

@[simp] theorem hmacFinish_cmpValid (s : State) : (hmacFinish s).cmpValid = s.cmpValid := by simp [hmacFinish]

@[simp] theorem hmacFinish_err (s : State) : (hmacFinish s).err = s.err := by simp [hmacFinish]

@[simp] theorem hmacFinish_lastErr (s : State) : (hmacFinish s).lastErr = s.lastErr := by simp [hmacFinish]

@[simp] theorem hmacFinish_busy (s : State) : (hmacFinish s).busy = s.busy := by simp [hmacFinish]

@[simp] theorem hmacFinish_cmdLatch (s : State) : (hmacFinish s).cmdLatch = s.cmdLatch := by simp [hmacFinish]

@[simp] theorem hmacFinish_din (s : State) : (hmacFinish s).din = s.din := by simp [hmacFinish]

@[simp] theorem hmacFinish_cmpb (s : State) : (hmacFinish s).cmpb = s.cmpb := by simp [hmacFinish]

@[simp] theorem hmacFinish_params (s : State) : (hmacFinish s).params = s.params := by simp [hmacFinish]

@[simp] theorem hmacFinish_turns (s : State) : (hmacFinish s).turns = s.turns := by simp [hmacFinish]

@[simp] theorem hmacFinish_resps (s : State) : (hmacFinish s).resps = s.resps := by simp [hmacFinish]

end Sys2Proof.Machine
end

