-- ==== Sys2Proof/Laws/Engine.lean ====
section
/-! SUPPORT. What the engine and a step can do, said once: every command answers a next state, a successful command is `complete` of
its effect, a failed one changes only the error reports, and a step is one turn of one agent (00_scope.md R5; 30_encoding.md
R65; 60_exceptions.md R112). -/

namespace Sys2Proof.Machine

/-- The effect of each command, without its checks. -/
def effectOf : Instr → State → State
  | .nop => id
  | .init => initEffect
  | .absorb la => fun s => update (dinBytes la s) s
  | .final => finalEffect
  | .zeroize => zeroizeEffect
  | .keySet la => keySetEffect la
  | .keyFromDigest => keyFromDigestEffect
  | .hmacStart => hmacStartEffect
  | .ctEq la lb b => ctEqEffect la lb b

/-- The checks of each command, in R113's order. -/
def checksOf : Instr → State → List (Bool × ErrCode)
  | .nop, _ => []
  | .init, _ => []
  | .absorb la, s => absorbChecks la s
  | .final, s => finalChecks s
  | .zeroize, _ => []
  | .keySet la, s => keySetChecks la s
  | .keyFromDigest, s => keyFromDigestChecks s
  | .hmacStart, s => hmacStartChecks s
  | .ctEq la lb b, s => ctEqChecks la lb b s

/-- The command is CT_EQ. -/
def isCtEq : Instr → Bool
  | .ctEq _ _ _ => true
  | .nop | .init | .absorb _ | .final | .zeroize | .keySet _ | .keyFromDigest | .hmacStart => false

/-- A failed command's report (R112). -/
def raiseOf (i : Instr) (c : ErrCode) (s : State) : State :=
  if isCtEq i then raiseCompareError c s else raiseError c s

/-- The meaning of every command in one shape: its checks, then its effect (R65). -/
theorem exec_eq (i : Instr) (s : State) :
    exec i s = match firstError (checksOf i s) with
      | none => .next (complete (effectOf i s))
      | some c => .next (raiseOf i c s) := by
  cases i <;> rfl

/-- Everything a command can do: its checks pass and its effect completes, or the first failing check is reported. -/
theorem exec_cases {i : Instr} {s t : State} (h : exec i s = .next t) :
    (firstError (checksOf i s) = none ∧ t = complete (effectOf i s)) ∨
      ∃ c, firstError (checksOf i s) = some c ∧ t = raiseOf i c s := by
  rw [exec_eq] at h
  split at h
  · next hc => exact .inl ⟨hc, by cases h; rfl⟩
  · next c hc => exact .inr ⟨c, hc, by cases h; rfl⟩

theorem exec_of_none {i : Instr} {s : State} (h : firstError (checksOf i s) = none) :
    exec i s = .next (complete (effectOf i s)) := by rw [exec_eq, h]

theorem exec_of_some {i : Instr} {s : State} {c : ErrCode} (h : firstError (checksOf i s) = some c) :
    exec i s = .next (raiseOf i c s) := by rw [exec_eq, h]

/-- No command stops the machine (R116). -/
theorem exec_is_next (i : Instr) (s : State) : ∃ t, exec i s = .next t := by
  rw [exec_eq]; split <;> exact ⟨_, rfl⟩

/-- Every command ends with BUSY = 0 (R65). -/
theorem exec_busy {i : Instr} {s t : State} (h : exec i s = .next t) : t.busy = false := by
  rcases exec_cases h with ⟨-, rfl⟩ | ⟨c, -, rfl⟩
  · rfl
  · unfold raiseOf; split <;> rfl

/-- What no command's effect touches: ERR, LAST_ERR, the pending command, the parameters and the model's lists. -/
theorem effectOf_frame (i : Instr) (s : State) :
    (effectOf i s).err = s.err ∧ (effectOf i s).lastErr = s.lastErr ∧ (effectOf i s).busy = s.busy
      ∧ (effectOf i s).cmdLatch = s.cmdLatch ∧ (effectOf i s).params = s.params
      ∧ (effectOf i s).turns = s.turns ∧ (effectOf i s).resps = s.resps := by
  cases i with
  | nop => simp [effectOf]
  | init => simp [effectOf, initEffect]
  | absorb la => simp [effectOf]
  | final => simp only [effectOf, finalEffect]; split <;> simp
  | zeroize => simp [effectOf, zeroizeEffect]
  | keySet la => simp [effectOf, keySetEffect]
  | keyFromDigest => simp [effectOf, keyFromDigestEffect]
  | hmacStart => simp [effectOf, hmacStartEffect]
  | ctEq la lb b => simp [effectOf, ctEqEffect]

/-- A command's outcome by LAST_ERR: 0 exactly when its checks pass (R112). -/
theorem exec_by_lastErr {i : Instr} {s t : State} (h : exec i s = .next t) :
    (t.lastErr = 0 ∧ firstError (checksOf i s) = none ∧ t = complete (effectOf i s)) ∨
      ∃ c, t.lastErr = c.code ∧ firstError (checksOf i s) = some c ∧ t = raiseOf i c s := by
  rcases exec_cases h with ⟨hc, rfl⟩ | ⟨c, hc, rfl⟩
  · exact .inl ⟨rfl, hc, rfl⟩
  · exact .inr ⟨c, by unfold raiseOf; split <;> rfl, hc, rfl⟩

/-! ## A command word -/

theorem performWord_of_ok {v : Word32} {i : Instr} {s : State} (h : decode v = .ok i) : performWord v s = exec i s := by
  simp [performWord, h]

theorem performWord_of_error {v : Word32} {e : IllegalCmd} {s : State} (h : decode v = .error e) :
    performWord v s = .next (illegalCommand v s) := by
  simp [performWord, h]

/-- Everything a command word can do: the decoded command, or ILLEGAL_CMD (R64, R65). -/
theorem performWord_cases (v : Word32) (s : State) :
    (∃ i, decode v = .ok i ∧ performWord v s = exec i s) ∨
      ∃ e, decode v = .error e ∧ performWord v s = .next (illegalCommand v s) := by
  cases h : decode v with
  | ok i => exact .inl ⟨i, rfl, performWord_of_ok h⟩
  | error e => exact .inr ⟨e, rfl, performWord_of_error h⟩

theorem performWord_is_next (v : Word32) (s : State) : ∃ t, performWord v s = .next t := by
  rcases performWord_cases v s with ⟨i, -, h⟩ | ⟨e, -, h⟩
  · rw [h]; exact exec_is_next i s
  · exact ⟨_, h⟩

/-- The opcode tells whether a command's failure clears the comparison flags (R112). -/
theorem isCtEq_iff_opcode (i : Instr) : isCtEq i = true ↔ i.opcode = 0x20 := by
  cases i <;> simp [isCtEq, Instr.opcode]

/-! ## A step -/

theorem step_of_none {s : State} (h : s.turns = []) : step s = engineStep s := by simp [step, h]

theorem step_of_engine {s : State} {rest : List Turn} (h : s.turns = .engine :: rest) :
    step s = engineStep (s.afterTurn rest) := by simp [step, h]

theorem step_of_host {s : State} {a : BusAccess} {rest : List Turn} (h : s.turns = .host a :: rest) :
    step s = busAccess a (s.afterTurn rest) := by simp [step, h]

theorem step_of_reset {s : State} {rest : List Turn} (h : s.turns = .reset :: rest) :
    step s = .next (resetBlock (s.afterTurn rest)) := by simp [step, h]

theorem engineStep_of_busy {s : State} (h : s.busy = true) : engineStep s = performWord s.cmdLatch s := by
  simp [engineStep, h]

theorem engineStep_of_idle {s : State} (h : s.busy = false) : engineStep s = .next s := by
  simp [engineStep, h]

/-- A legal access to the window at offset `off` (R43, R46). -/
theorem busAccess_of_legal {s : State} {off : Nat} {op : BusOp} (hw : off < 256) (hl : off % 4 = 0) :
    busAccess ⟨s.params.base + off, 4, op⟩ s = .next (performAccess off op s) := by
  have hb : s.params.base % 4 = 0 := by unfold Params.base; omega
  have h1 : inWindow s.params (s.params.base + off) = true := by simp [inWindow, windowSize]; omega
  have h2 : accessLegal ⟨s.params.base + off, 4, op⟩ = true := by simp [accessLegal]; omega
  simp [busAccess, h1, h2]

/-- Everything a step can do: one turn of one agent (R5). -/
theorem step_cases {s t : State} (h : step s = .next t) :
    (s.turns = [] ∧ engineStep s = .next t) ∨
      (∃ rest, s.turns = .engine :: rest ∧ engineStep (s.afterTurn rest) = .next t) ∨
      (∃ a rest, s.turns = .host a :: rest ∧ busAccess a (s.afterTurn rest) = .next t) ∨
      ∃ rest, s.turns = .reset :: rest ∧ t = resetBlock (s.afterTurn rest) := by
  unfold step at h
  split at h
  · next hs => exact .inl ⟨hs, h⟩
  · next rest hs => exact .inr (.inl ⟨rest, hs, h⟩)
  · next a rest hs => exact .inr (.inr (.inl ⟨a, rest, hs, h⟩))
  · next rest hs => exact .inr (.inr (.inr ⟨rest, hs, by cases h; rfl⟩))

/-- Everything the engine's turn can do (R65). -/
theorem engineStep_cases {s t : State} (h : engineStep s = .next t) :
    (s.busy = true ∧ performWord s.cmdLatch s = .next t) ∨ (s.busy = false ∧ t = s) := by
  unfold engineStep at h
  split at h
  · next hb => exact .inl ⟨hb, h⟩
  · next hb => exact .inr ⟨by simpa using hb, by cases h; rfl⟩

/-- Everything a host access can do: a bus error response, or a legal access to the window (R46, R49, R50). -/
theorem busAccess_cases {a : BusAccess} {s t : State} (h : busAccess a s = .next t) :
    inWindow s.params a.addr = true ∧
      ((accessLegal a = false ∧ t = respond (.busError 0) s) ∨
        (accessLegal a = true ∧ t = performAccess (a.addr - s.params.base) a.op s)) := by
  unfold busAccess at h
  split at h
  · next hw =>
    refine ⟨hw, ?_⟩
    split at h
    · next hl => exact .inr ⟨hl, by cases h; rfl⟩
    · next hl => exact .inl ⟨by simpa using hl, by cases h; rfl⟩
  · cases h

/-- What a write can change: nothing, ERR, the pending command, DIN or CMPB (R50). -/
theorem writeReg_cases (s : State) (r : Reg) (v : Word32) :
    writeReg s r v = s ∨ writeReg s r v = busyViolation s ∨ writeReg s r v = clearErr v s ∨
      (s.busy = false ∧ writeReg s r v = { s with cmdLatch := v, busy := true }) ∨
      (∃ m, r = .din m ∧ s.busy = false ∧ writeReg s r v = { s with din := setLane s.din m v }) ∨
      ∃ m, r = .cmpb m ∧ s.busy = false ∧ writeReg s r v = { s with cmpb := setLane s.cmpb m v } := by
  cases r with
  | cmd =>
    cases hb : s.busy with
    | true => exact .inr (.inl (by simp [writeReg, hb]))
    | false => exact .inr (.inr (.inr (.inl ⟨rfl, by simp [writeReg, hb]⟩)))
  | err => exact .inr (.inr (.inl rfl))
  | din m =>
    cases hb : s.busy with
    | true => exact .inr (.inl (by simp [writeReg, hb]))
    | false => exact .inr (.inr (.inr (.inr (.inl ⟨m, rfl, rfl, by simp [writeReg, hb]⟩))))
  | cmpb m =>
    cases hb : s.busy with
    | true => exact .inr (.inl (by simp [writeReg, hb]))
    | false => exact .inr (.inr (.inr (.inr (.inr ⟨m, rfl, rfl, by simp [writeReg, hb]⟩))))
  | status => exact .inl rfl
  | lenLo => exact .inl rfl
  | lenHi => exact .inl rfl
  | mlenLo => exact .inl rfl
  | mlenHi => exact .inl rfl
  | digest m => exact .inl rfl
  | reserved => exact .inl rfl

/-- A write never changes the engine state, the key, the flags, the parameters or the model's lists (R50). -/
theorem writeReg_frame (s : State) (r : Reg) (v : Word32) :
    (writeReg s r v).words = s.words ∧ (writeReg s r v).pend = s.pend ∧ (writeReg s r v).plen = s.plen
      ∧ (writeReg s r v).len = s.len ∧ (writeReg s r v).mlen = s.mlen ∧ (writeReg s r v).estate = s.estate
      ∧ (writeReg s r v).mode = s.mode ∧ (writeReg s r v).key = s.key ∧ (writeReg s r v).keyValid = s.keyValid
      ∧ (writeReg s r v).cmpEq = s.cmpEq ∧ (writeReg s r v).cmpValid = s.cmpValid
      ∧ (writeReg s r v).lastErr = s.lastErr ∧ (writeReg s r v).params = s.params
      ∧ (writeReg s r v).turns = s.turns ∧ (writeReg s r v).resps = s.resps := by
  rcases writeReg_cases s r v with h | h | h | ⟨-, h⟩ | ⟨m, -, -, h⟩ | ⟨m, -, -, h⟩ <;> rw [h] <;>
    exact ⟨rfl, rfl, rfl, rfl, rfl, rfl, rfl, rfl, rfl, rfl, rfl, rfl, rfl, rfl, rfl⟩

/-- While BUSY = 1 a write keeps BUSY, the pending command, DIN and CMPB (R57, R128). -/
theorem writeReg_busy_frame {s : State} (h : s.busy = true) (r : Reg) (v : Word32) :
    (writeReg s r v).busy = true ∧ (writeReg s r v).cmdLatch = s.cmdLatch
      ∧ (writeReg s r v).din = s.din ∧ (writeReg s r v).cmpb = s.cmpb := by
  rcases writeReg_cases s r v with h' | h' | h' | ⟨hb, h'⟩ | ⟨m, -, hb, h'⟩ | ⟨m, -, hb, h'⟩
  · rw [h']; exact ⟨h, rfl, rfl, rfl⟩
  · rw [h']; exact ⟨h, rfl, rfl, rfl⟩
  · rw [h']; exact ⟨h, rfl, rfl, rfl⟩
  all_goals rw [h] at hb; cases hb

/-- What a legal access leaves: the write's state, or the same state with the data answered. -/
theorem performAccess_cases (off : Nat) (op : BusOp) (s : State) :
    performAccess off op s = respond (.data (readReg s (regAt off))) s ∨
      ∃ v, op = .write v ∧ performAccess off op s = respond .done (writeReg s (regAt off) v) := by
  cases op with
  | read => exact .inl rfl
  | write v => exact .inr ⟨v, rfl, rfl⟩

/-! ## Which effects write what -/

/-- No effect but those of the key commands and ZEROIZE writes KEY or KEY_VALID (R22). -/
theorem effectOf_key_frame (i : Instr) (s : State) :
    ((effectOf i s).key = s.key ∧ (effectOf i s).keyValid = s.keyValid) ∨
      i.opcode ∈ ([0x10, 0x11, 0x04] : List (BitVec 8)) := by
  cases i with
  | nop => simp [effectOf]
  | init => simp [effectOf, initEffect]
  | absorb la => simp [effectOf]
  | final => simp only [effectOf, finalEffect]; left; split <;> simp
  | zeroize => simp [Instr.opcode]
  | keySet la => simp [Instr.opcode]
  | keyFromDigest => simp [Instr.opcode]
  | hmacStart => simp [effectOf, hmacStartEffect]
  | ctEq la lb b => simp [effectOf, ctEqEffect]

/-- No effect but those of INIT, HMAC_START, ABSORB, FINAL and ZEROIZE writes the engine state (R16). -/
theorem effectOf_engine_frame (i : Instr) (s : State) :
    ((effectOf i s).words = s.words ∧ (effectOf i s).pend = s.pend ∧ (effectOf i s).plen = s.plen
      ∧ (effectOf i s).len = s.len ∧ (effectOf i s).estate = s.estate) ∨
      i.opcode ∈ ([0x01, 0x12, 0x02, 0x03, 0x04] : List (BitVec 8)) := by
  cases i <;> simp [Instr.opcode, effectOf, keySetEffect, keyFromDigestEffect, ctEqEffect]

/-- No effect but ZEROIZE's writes DIN or CMPB (R35). -/
theorem effectOf_window_frame (i : Instr) (s : State) :
    ((effectOf i s).din = s.din ∧ (effectOf i s).cmpb = s.cmpb) ∨ i.opcode = 0x04 := by
  cases i with
  | nop => simp [effectOf]
  | init => simp [effectOf, initEffect]
  | absorb la => simp [effectOf]
  | final => simp only [effectOf, finalEffect]; left; split <;> simp
  | zeroize => simp [Instr.opcode]
  | keySet la => simp [effectOf, keySetEffect]
  | keyFromDigest => simp [effectOf, keyFromDigestEffect]
  | hmacStart => simp [effectOf, hmacStartEffect]
  | ctEq la lb b => simp [effectOf, ctEqEffect]

/-- From one command's effect to a command word: a relation that error reports keep, and that every successful effect keeps unless
its opcode is one of `ops`, holds across every word that does not complete without error with one of those opcodes. -/
theorem performWord_lift {P : State → State → Prop} {ops : List (BitVec 8)}
    (hraise : ∀ s c, P s (raiseError c s) ∧ P s (raiseCompareError c s))
    (heff : ∀ i s, P s (complete (effectOf i s)) ∨ i.opcode ∈ ops)
    {v : Word32} {s t : State} (h : performWord v s = .next t) :
    P s t ∨ (t.lastErr = 0 ∧ cmdOp v ∈ ops) := by
  rcases performWord_cases v s with ⟨i, hd, h'⟩ | ⟨e, -, h'⟩
  · rw [h'] at h
    rcases exec_by_lastErr h with ⟨h0, -, rfl⟩ | ⟨c, -, -, rfl⟩
    · rcases heff i s with h | h
      · exact .inl h
      · exact .inr ⟨h0, by rwa [(decode_ok hd).2.1]⟩
    · unfold raiseOf
      split
      · exact .inl (hraise _ _).2
      · exact .inl (hraise _ _).1
  · rw [h'] at h
    cases h
    unfold illegalCommand
    split
    · exact .inl (hraise _ _).2
    · exact .inl (hraise _ _).1

/-! ## The register map -/

/-- The DIN and CMPB registers lie at offsets 0x40 to 0xBF (R30). -/
theorem regAt_din_range {off : Nat} {m : Fin 16} (h : regAt off = .din m) : 0x40 ≤ off ∧ off < 0xC0 := by
  unfold regAt at h
  repeat' split at h
  all_goals first | (exfalso; simp at h; done) | omega

theorem regAt_cmpb_range {off : Nat} {m : Fin 16} (h : regAt off = .cmpb m) : 0x40 ≤ off ∧ off < 0xC0 := by
  unfold regAt at h
  repeat' split at h
  all_goals first | (exfalso; simp at h; done) | omega

end Sys2Proof.Machine
end

