-- ==== Sys2Proof/Laws/Checks.lean ====
section
/-! SUPPORT. When each command passes its checks, as conditions on the state and the operands alone (the command rules R86, R87,
R95, R96, R97, R103 and their priority R113), and that no command raises BUSY_VIOLATION (60_exceptions.md R111). -/

namespace Sys2Proof.Machine

theorem firstError_cons_eq_none {failed : Bool} {c : ErrCode} {rest : List (Bool × ErrCode)} :
    firstError ((failed, c) :: rest) = none ↔ failed = false ∧ firstError rest = none := by
  cases failed <;> simp [firstError]

/-- An error that is raised is one of the listed ones. -/
theorem firstError_mem {l : List (Bool × ErrCode)} {c : ErrCode} (h : firstError l = some c) : (true, c) ∈ l := by
  induction l with
  | nil => cases h
  | cons a l ih =>
    obtain ⟨failed, c'⟩ := a
    cases failed
    · exact List.mem_cons_of_mem _ (ih (by simpa [firstError] using h))
    · obtain rfl : c' = c := by simpa [firstError] using h
      exact List.mem_cons_self

/-- R86: ABSORB passes its checks for at most 64 bytes outside IDLE. -/
theorem absorbChecks_pass {la : Nat} {s : State} :
    firstError (absorbChecks la s) = none ↔ la ≤ 64 ∧ s.estate ≠ .idle := by
  simp only [absorbChecks, firstError_cons_eq_none]
  simp [absorbMax]

/-- R87: FINAL passes its checks in FRESH and ABSORBING. -/
theorem finalChecks_pass {s : State} :
    firstError (finalChecks s) = none ↔ s.estate ≠ .idle ∧ s.estate ≠ .finalized := by
  simp only [finalChecks, firstError_cons_eq_none]
  simp

/-- R95: KEY_SET passes its checks for at most 64 bytes, none only where empty keys are allowed, outside a running HMAC. -/
theorem keySetChecks_pass {la : Nat} {s : State} :
    firstError (keySetChecks la s) = none ↔
      la ≤ 64 ∧ (la = 0 → s.params.allowEmptyKey = true) ∧ ¬ (s.mode = .hmac ∧ s.estate = .absorbing) := by
  simp only [keySetChecks, firstError_cons_eq_none]
  simp [hmacKeyMax]

/-- R96: KEY_FROM_DIGEST passes its checks with a finished unkeyed digest of more than 64 bytes. -/
theorem keyFromDigestChecks_pass {s : State} :
    firstError (keyFromDigestChecks s) = none ↔
      (s.estate = .finalized ∧ s.mode = .plain) ∧ 64 < s.mlen.toNat := by
  simp only [keyFromDigestChecks, firstError_cons_eq_none, decide_eq_false_iff_not, Nat.not_le]
  simp [hmacKeyMax]

/-- R97: HMAC_START passes its check with a key loaded. -/
theorem hmacStartChecks_pass {s : State} : firstError (hmacStartChecks s) = none ↔ s.keyValid = true := by
  simp only [hmacStartChecks, firstError_cons_eq_none]
  simp

/-- R103: CT_EQ passes its checks for lengths in range, and with a digest operand only in FINALIZED. -/
theorem ctEqChecks_pass {la lb : Nat} {b : OperandB} {s : State} :
    firstError (ctEqChecks la lb b s) = none ↔
      (la ≤ 64 ∧ lb ≤ 64) ∧ (b = .digest → lb ≤ 32) ∧ (b = .digest → s.estate = .finalized) := by
  simp only [ctEqChecks, firstError_cons_eq_none]
  simp [ctMax, digestLen]

/-- R111: BUSY_VIOLATION is raised by no command. -/
theorem checksOf_ne_busyViolation {i : Instr} {s : State} {c : ErrCode} (h : firstError (checksOf i s) = some c) :
    c ≠ .busyViolation := by
  rintro rfl
  have hm := firstError_mem h
  cases i <;>
    simp [checksOf, absorbChecks, finalChecks, keySetChecks, keyFromDigestChecks, hmacStartChecks, ctEqChecks] at hm

end Sys2Proof.Machine
end

