-- ==== Sys2Proof/Laws/Compare.lean ====
section
/-! SUPPORT. The comparator as a proposition, and the byte lanes bit by bit (43_compare.md R102; 20_memory.md R47, R48). -/

namespace Sys2Proof.Machine

/-- The accumulator ends zero exactly when it began zero and no visited byte below `n` differs (R102). -/
theorem ctFold_eq_zero (a b : Block) (n : Nat) (l : List (Fin 64)) (acc : Byte) :
    l.foldl (ctStep a b n) acc = 0 ↔ acc = 0 ∧ ∀ k ∈ l, k.val < n → a[k] = b[k] := by
  induction l generalizing acc with
  | nil => simp
  | cons k l ih =>
    have hstep : ctStep a b n acc k = 0 ↔ acc = 0 ∧ (k.val < n → a[k] = b[k]) := by
      unfold ctStep
      by_cases h : k.val < n
      · have hm : (a[k] ^^^ b[k]) &&& (if k.val < n then 0xFF else 0x00) = a[k] ^^^ b[k] := by
          rw [if_pos h]; exact BitVec.and_allOnes
        rw [hm]
        simp [h]
      · simp [h]
    rw [List.foldl_cons, ih, hstep]
    simp [and_assoc]

/-- R102: the comparison is true exactly when the lengths are equal and so are the bytes below them. -/
theorem ctEqCore_eq (a b : Block) (la lb : Nat) :
    ctEqCore a b la lb = decide (la = lb ∧ ∀ k : Fin 64, k.val < la → a[k] = b[k]) := by
  have hfold : (ctPositions.foldl (ctStep a b (min la lb)) 0x00 == 0x00)
      = decide (∀ k : Fin 64, k.val < min la lb → a[k] = b[k]) := by
    rw [Bool.eq_iff_iff, beq_iff_eq, decide_eq_true_iff]
    exact (ctFold_eq_zero a b _ _ 0).trans (by simp [ctPositions])
  rw [ctEqCore, hfold]
  by_cases h : la = lb
  · subst h; simp
  · simp [h]

/-- R104: a comparison visits 64 positions, whatever the lengths and the bytes. -/
theorem ctPositions_length : ctPositions.length = 64 := by simp [ctPositions]

/-- Bit `n` of a little-endian 64-bit word is bit `n % 8` of its byte `n / 8` (R10). -/
theorem leWord_getLsbD (b : Block) (k : Fin 8) (n : Nat) (h : n < 64) :
    (leWord b k).getLsbD n = (b[8 * k.val + n / 8]'(by omega)).getLsbD (n % 8) := by
  have hn : n / 8 = 0 ∨ n / 8 = 1 ∨ n / 8 = 2 ∨ n / 8 = 3 ∨ n / 8 = 4 ∨ n / 8 = 5 ∨ n / 8 = 6 ∨ n / 8 = 7 := by omega
  simp only [leWord, BitVec.getLsbD_append]
  rcases hn with hn | hn | hn | hn | hn | hn | hn | hn <;> simp only [hn] <;> (repeat' split) <;>
    first
      | (exfalso; omega)
      | (congr 1; omega)

/-- Bit `n` of a 32-bit register of a window is bit `n % 8` of its byte `n / 8` (R47). -/
theorem laneWord_getLsbD (b : Block) (m : Fin 16) (n : Nat) (h : n < 32) :
    (laneWord b m).getLsbD n = (b[4 * m.val + n / 8]'(by omega)).getLsbD (n % 8) := by
  have hn : n / 8 = 0 ∨ n / 8 = 1 ∨ n / 8 = 2 ∨ n / 8 = 3 := by omega
  simp only [laneWord, BitVec.getLsbD_append]
  rcases hn with hn | hn | hn | hn <;> simp only [hn] <;> (repeat' split) <;>
    first
      | (exfalso; omega)
      | (congr 1; omega)

/-- Reading back a register of a window after a write gives the value written (R35). -/
theorem laneWord_setLane (b : Block) (m : Fin 16) (v : Word32) : laneWord (setLane b m v) m = v := by
  apply BitVec.eq_of_getLsbD_eq
  intro n hn
  rw [laneWord_getLsbD _ _ _ hn]
  simp only [setLane, Vector.getElem_ofFn]
  rw [if_pos (by omega), BitVec.getLsbD_extractLsb']
  simp only [show n % 8 < 8 by omega, decide_true, Bool.true_and]
  exact congrArg _ (by omega)

/-- A write to one register of a window leaves the others (R35). -/
theorem laneWord_setLane_of_ne (b : Block) {m m' : Fin 16} (v : Word32) (h : m' ≠ m) :
    laneWord (setLane b m v) m' = laneWord b m' := by
  have hv : m'.val ≠ m.val := fun hv => h (Fin.ext hv)
  apply BitVec.eq_of_getLsbD_eq
  intro n hn
  rw [laneWord_getLsbD _ _ _ hn, laneWord_getLsbD _ _ _ hn]
  simp only [setLane, Vector.getElem_ofFn]
  rw [if_neg (by omega)]
  rfl

end Sys2Proof.Machine
end

