-- ==== Sys2Proof/Laws/PerInstr.lean ====
section
/-! SUPPORT. The family ReservedBitsZero: what the command word of each command has in its opcode and reserved bits
(30_encoding.md R61, R63). -/

namespace Sys2Proof.Laws.ReservedBitsZero

/-- The command's word carries its opcode and has every reserved bit zero. -/
def Statement (i : Instr) : Prop :=
  cmdOp (encode i) = i.opcode ∧ cmdRsv (encode i) = 0

theorem nop : Statement .nop := ⟨cmdOp_assemble _ _ _ _, cmdRsv_assemble _ _ _ _⟩

theorem init : Statement .init := ⟨cmdOp_assemble _ _ _ _, cmdRsv_assemble _ _ _ _⟩

theorem absorb (la : Nat) : Statement (.absorb la) := ⟨cmdOp_assemble _ _ _ _, cmdRsv_assemble _ _ _ _⟩

theorem final : Statement .final := ⟨cmdOp_assemble _ _ _ _, cmdRsv_assemble _ _ _ _⟩

theorem zeroize : Statement .zeroize := ⟨cmdOp_assemble _ _ _ _, cmdRsv_assemble _ _ _ _⟩

theorem keySet (la : Nat) : Statement (.keySet la) := ⟨cmdOp_assemble _ _ _ _, cmdRsv_assemble _ _ _ _⟩

theorem keyFromDigest : Statement .keyFromDigest := ⟨cmdOp_assemble _ _ _ _, cmdRsv_assemble _ _ _ _⟩

theorem hmacStart : Statement .hmacStart := ⟨cmdOp_assemble _ _ _ _, cmdRsv_assemble _ _ _ _⟩

theorem ctEq (la lb : Nat) (b : OperandB) : Statement (.ctEq la lb b) :=
  ⟨cmdOp_assemble _ _ _ _, cmdRsv_assemble _ _ _ _⟩

end Sys2Proof.Laws.ReservedBitsZero
end

