-- ==== Sys2Proof/Laws/Runs.lean ====
section
/-! SUPPORT. What a run of ABSORB commands leaves, however the message is split, and that there is such a run for every message
(41_stream.md R90). -/

namespace Sys2Proof.Machine

/-- An ABSORB of at most 64 bytes in FRESH or ABSORBING completes with `update` of its bytes (R86). -/
theorem exec_absorb_of_open {la : Nat} {u v : State} (hla : la ≤ 64) (he : u.estate = .fresh ∨ u.estate = .absorbing)
    (h : exec (.absorb la) u = .next v) : v = complete (update (dinBytes la u) u) := by
  have hni : u.estate ≠ .idle := by rcases he with h | h <;> simp [h]
  rw [exec_of_none (by simp [checksOf, absorbChecks, absorbMax, hni]; omega)] at h
  cases h
  rfl

/-- A run of ABSORBs from FRESH or ABSORBING leaves the engine as one `update` of all the bytes does, and stays there. -/
theorem absorbRun_engine {s t : State} {m : List Byte} (h : AbsorbRun s m t)
    (he : s.estate = .fresh ∨ s.estate = .absorbing) :
    SameEngine t { s.withAbsorber (feed s.params.k s.absorber m) with
        len := s.len + BitVec.ofNat 64 m.length, estate := t.estate } ∧
      (t.estate = .fresh ∨ t.estate = .absorbing) := by
  induction h with
  | start => exact ⟨⟨rfl, rfl, rfl, by simp, rfl, rfl, rfl, rfl, rfl⟩, he⟩
  | @chunk t u v m la h1 h2 h3 h4 ih =>
    obtain ⟨⟨a1, a2, a3, a4, a5, a6, a7, a8, a9⟩, he'⟩ := ih
    obtain ⟨b1, b2, b3, b4, b5, b6, b7, b8, b9⟩ := h2
    have heu : u.estate = .fresh ∨ u.estate = .absorbing := by rw [← b6]; exact he'
    have hne : u.estate ≠ .finalized := by rcases heu with h | h <;> simp [h]
    have hv := exec_absorb_of_open h3 heu h4
    rw [update_of_ne _ hne] at hv
    have hab : u.absorber = feed s.params.k s.absorber m := by
      have : u.absorber = ⟨u.words, u.pend, u.plen⟩ := rfl
      rw [this, ← b1, ← b2, ← b3, a1, a2, a3]
      rfl
    have hk : u.params = s.params := by rw [← b9, a9]; rfl
    have hlen : (dinBytes la u).length = la := by simp [dinBytes]; omega
    have hev : v.estate = .absorbing := by
      rw [hv]; rcases heu with h | h <;> simp [h, EState.absorbed]
    refine ⟨⟨?_, ?_, ?_, ?_, ?_, rfl, ?_, ?_, ?_⟩, .inr hev⟩
    all_goals rw [hv]
    · simp [hab, hk, feed_append]
    · simp [hab, hk, feed_append]
    · simp [hab, hk, feed_append]
    · simp [hlen, ← b4, a4, BitVec.ofNat_add, BitVec.add_assoc]
    · simp [← b5, a5]
    · simp [← b7, a7]
    · simp [← b8, a8]
    · simp [hk]

/-- Every message has a run of ABSORBs, one byte at a time. -/
theorem absorbRun_exists (m : List Byte) {s : State} (he : s.estate = .fresh ∨ s.estate = .absorbing) :
    ∃ t, AbsorbRun s m t := by
  induction m using List.reverseRecOn with
  | nil => exact ⟨s, .start s⟩
  | append_singleton as b ih =>
    obtain ⟨t, ht⟩ := ih
    have hi := (absorbRun_engine ht he).2
    obtain ⟨v, hv⟩ := exec_is_next (.absorb 1) { t with din := blockOf [b] }
    refine ⟨v, ?_⟩
    have := AbsorbRun.chunk (u := { t with din := blockOf [b] }) (la := 1) ht
      ⟨rfl, rfl, rfl, rfl, rfl, rfl, rfl, rfl, rfl⟩ (by omega) hv
    have hd : dinBytes 1 { t with din := blockOf [b] } = [b] := by
      simp only [dinBytes]
      apply List.ext_getElem
      · simp
      · intro n h1 h2
        simp at h2
        subst h2
        simp [blockOf]
    rwa [hd] at this

/-- What finalizing compresses, once `m` has been absorbed from `IV` and an empty buffer: the words of `H(m)` (R82, R84). -/
theorem compressAll_of_absorbed {p : Params} {u : State} {m : List Byte} (hk : u.params = p)
    (hab : (⟨u.words, u.pend, u.plen⟩ : Absorber) = feed p.k ⟨p.iv, zeroBlock, 0⟩ m)
    (hl : u.len = BitVec.ofNat 64 m.length) :
    compressAll u.params.k u.words (u.pend.toList.take u.plen.val ++ pad u.params.lenUnit u.len u.plen.val)
      = hashWords p m := by
  have hplen : u.plen.val = m.length % 64 := by
    have := congrArg (fun e : Absorber => e.plen.val) hab
    simp only [feed_plen] at this
    rw [this]
    simp
  have e1 := feed_blocks p.k ⟨u.words, u.pend, u.plen⟩ (pad u.params.lenUnit u.len u.plen.val) (pad_ne_nil _ _ _)
    (by simp; omega)
  have e2 := feed_blocks p.k ⟨p.iv, zeroBlock, 0⟩ (m ++ pad u.params.lenUnit u.len u.plen.val) (by simp [pad_ne_nil])
    (by simp [hplen]; omega)
  rw [feed_append, ← hab, e1] at e2
  have e3 := congrArg Absorber.words e2
  simp only [Fin.val_zero, List.take_zero, List.nil_append] at e3
  rw [hk] at e3 ⊢
  rw [e3, hl, hplen]
  rfl

end Sys2Proof.Machine
end

