-- ==== Sys2Proof/Machine/HostSyntax.lean ====
section
/-! DEFINITION. The host's assembly forms and what they expand to (30_encoding.md R66, R67): a way to write the host's turns.  The
machine does not read this file; a line is its host accesses and nothing else. -/

namespace Sys2Proof.Machine

/-- One primitive host line (R66). -/
inductive HostOp where
  /-- `wr OFF, IMM32`. -/
  | wr (off : Nat) (v : Word32)
  /-- `rd OFF`. -/
  | rd (off : Nat)
  /-- `poll`: read STATUS until BUSY reads 0. -/
  | poll
  deriving DecidableEq, Repr

/-- The offset of a register name (R30, R66); a reserved offset has no name. -/
def Reg.offset : Reg → Option Nat
  | .cmd => some 0x00
  | .status => some 0x04
  | .err => some 0x08
  | .lenLo => some 0x10
  | .lenHi => some 0x14
  | .mlenLo => some 0x18
  | .mlenHi => some 0x1C
  | .din m => some (0x40 + 4 * m.val)
  | .cmpb m => some (0x80 + 4 * m.val)
  | .digest m => some (0xC0 + 4 * m.val)
  | .reserved => none

/-- A command mnemonic: `wr CMD` of its word; an operand that does not fit its field is a syntax error (R66). -/
def HostOp.command (i : Instr) : Option HostOp :=
  if i.wellFormed then some (.wr 0x00 (encode i)) else none

/-- A primitive line as the turns of host and engine.  A `poll` is `early` reads that find BUSY = 1, the engine's turn, and the
read that finds BUSY = 0: how many reads come early is the interleaving's choice (R5, R127; log entries 3
and 14). -/
def HostOp.turns (base early : Nat) : HostOp → List Turn
  | .wr off v => [.host ⟨base + off, 4, .write v⟩]
  | .rd off => [.host ⟨base + off, 4, .read⟩]
  | .poll =>
    List.replicate early (.host ⟨base + 0x04, 4, .read⟩) ++ [.engine, .host ⟨base + 0x04, 4, .read⟩]

/-- `LE32(b[0..4))` (R67), with zeros past the end of `b`. -/
def le32 (b : List Byte) : Word32 := b.getD 3 0 ++ b.getD 2 0 ++ b.getD 1 0 ++ b.getD 0 0

/-- `ldin s` and `ldcmpb s` (R67): the words of `s ‖ 0^3` written to the window at `off`; only for `len(s) <= 64`. -/
def loadWindow (off : Nat) (s : List Byte) : Option (List HostOp) :=
  if s.length ≤ 64 then
    some ((List.range ((s.length + 3) / 4)).map fun m => .wr (off + 4 * m) (le32 (s.drop (4 * m))))
  else none

/-- The consecutive chunks of 64 bytes, the last perhaps shorter, none of an empty string (R67). -/
def chunks64 (s : List Byte) : List (List Byte) :=
  (List.range ((s.length + 63) / 64)).map fun n => (s.drop (64 * n)).take 64

/-- `exec X` (R67): the command, then `poll`. -/
def execLines (i : Instr) : Option (List HostOp) := do
  let c ← HostOp.command i
  return [c, .poll]

/-- `ldin c`, `exec absorb len(c)` for each chunk (R67). -/
def absorbLines : List (List Byte) → Option (List HostOp)
  | [] => some []
  | c :: cs => do
    let load ← loadWindow 0x40 c
    let run ← execLines (.absorb c.length)
    let rest ← absorbLines cs
    return load ++ run ++ rest

/-- `hash s` (R67). -/
def hashLines (s : List Byte) : Option (List HostOp) := do
  let first ← execLines .init
  let body ← absorbLines (chunks64 s)
  let last ← execLines .final
  return first ++ body ++ last

/-- `setkey k` (R67). -/
def setKeyLines (k : List Byte) : Option (List HostOp) :=
  if k.length ≤ 64 then do
    let load ← loadWindow 0x40 k
    let run ← execLines (.keySet k.length)
    return load ++ run
  else do
    let digest ← hashLines k
    let run ← execLines .keyFromDigest
    return digest ++ run

/-- `hmac k, s` (R67). -/
def hmacLines (k s : List Byte) : Option (List HostOp) := do
  let key ← setKeyLines k
  let start ← execLines .hmacStart
  let body ← absorbLines (chunks64 s)
  let last ← execLines .final
  return key ++ start ++ body ++ last

/-- `verify t` (R67); only for `len(t) <= 32`. -/
def verifyLines (t : List Byte) : Option (List HostOp) :=
  if t.length ≤ 32 then do
    let load ← loadWindow 0x40 t
    let run ← execLines (.ctEq t.length 32 .digest)
    return load ++ run ++ [.rd 0x04]
  else none

end Sys2Proof.Machine
end

