-- ==== Sys2Proof/Tests/Slice0.lean ====
section
/-! SUPPORT. Tests: what WellFormed refuses, words written out bit by bit from 30_encoding.md, one-step tests against the vectors of
95_test_vectors.md, and states that meet the hypotheses of the obligations. -/

namespace Sys2Proof.Machine.Tests

/-! ## WellFormed (R61, R66) -/

theorem test_wellFormed_refuses_absorb_128 : (Instr.absorb 128).wellFormed = false := by decide
theorem test_wellFormed_refuses_keySet_128 : (Instr.keySet 128).wellFormed = false := by decide
theorem test_wellFormed_refuses_ctEq_la_128 : (Instr.ctEq 128 0 .cmpb).wellFormed = false := by decide
theorem test_wellFormed_refuses_ctEq_lb_128 : (Instr.ctEq 0 128 .digest).wellFormed = false := by decide
theorem test_wellFormed_takes_127 : (Instr.ctEq 127 127 .digest).wellFormed = true := by decide
theorem test_command_mnemonic_out_of_field : HostOp.command (.absorb 128) = none := by decide

/-! ## Command words, bit by bit (R61, R63): reserved, BSEL, LB, reserved, LA, OP -/

/-- A command word from its six fields, most significant first. -/
def bits (hi : BitVec 8) (bsel : BitVec 1) (lb : BitVec 7) (r15 : BitVec 1) (la : BitVec 7) (op : BitVec 8) : Word32 :=
  hi ++ bsel ++ lb ++ r15 ++ la ++ op

theorem test_decode_nop : decode (bits 0 0 0 0 0 0b00000000) = .ok .nop := by decide
theorem test_decode_init : decode (bits 0 0 0 0 0 0b00000001) = .ok .init := by decide
theorem test_decode_absorb : decode (bits 0 0 0 0 0b0101011 0b00000010) = .ok (.absorb 43) := by decide
theorem test_decode_final : decode (bits 0 0 0 0 0 0b00000011) = .ok .final := by decide
theorem test_decode_zeroize : decode (bits 0 0 0 0 0 0b00000100) = .ok .zeroize := by decide
theorem test_decode_keySet : decode (bits 0 0 0 0 0b1000000 0b00010000) = .ok (.keySet 64) := by decide
theorem test_decode_keyFromDigest : decode (bits 0 0 0 0 0 0b00010001) = .ok .keyFromDigest := by decide
theorem test_decode_hmacStart : decode (bits 0 0 0 0 0 0b00010010) = .ok .hmacStart := by decide
theorem test_decode_ctEq :
    decode (bits 0 1 0b0100000 0 0b0010000 0b00100000) = .ok (.ctEq 16 32 .digest) := by decide

/-- V-E1 rows 8 to 13 and 30: an unassigned opcode, a field the opcode does not have, each reserved field. -/
theorem test_illegal_words :
    decode 0x00000005 = .error .unassignedOpcode ∧ decode 0x000000FF = .error .unassignedOpcode ∧
      decode 0x00000100 = .error .unusedField ∧ decode 0x01000001 = .error .reservedBits ∧
      decode 0x00008002 = .error .reservedBits ∧ decode 0x00010002 = .error .unusedField ∧
      decode 0x00000104 = .error .unusedField ∧ decode 0x00800002 = .error .unusedField := by decide

/-- P1's and R66's command words. -/
theorem test_encode_words :
    encode (.absorb 3) = 0x00000302 ∧ encode (.keySet 64) = 0x00004010 ∧ encode (.ctEq 3 2 .cmpb) = 0x00020320 ∧
      encode (.ctEq 32 33 .digest) = 0x00A12020 := by decide

/-! ## Test states -/

/-- TP1 of 95_test_vectors.md: `K = 3`. -/
def tp1 : Params := ⟨1, #v[1, 2, 3, 4], 0, .bytes, false⟩

/-- TP2 of 95_test_vectors.md: `K = 0x9E3779B97F4A7C15`. -/
def tp2 : Params :=
  ⟨0x4F1BBCDCBFA53E0A, #v[0x0123456789ABCDEF, 0xFEDCBA9876543210, 0x0F1E2D3C4B5A6978, 0x8796A5B4C3D2E1F0], 0, .bytes, false⟩

theorem test_tp_multipliers : tp1.k = 3 ∧ tp2.k = 0x9E3779B97F4A7C15 := by decide

/-- Reset under given parameters. -/
def fresh0 (p : Params) : State := { State.reset with params := p }

/-- After INIT under given parameters. -/
def inited (p : Params) : State := { fresh0 p with words := p.iv, estate := .fresh }

/-- A finished unkeyed hash of a message of `n` bytes. -/
def finished (w : Words) (n : Nat) : State :=
  { fresh0 tp2 with words := w, mlen := BitVec.ofNat 64 n, estate := .finalized }

/-- The HMAC of "key" right after HMAC_START (V-M3). -/
def hmacKey : State :=
  { fresh0 tp2 with
    words := #v[0x2E91F5D07D44BC1E, 0x6614B1DD69103192, 0x72AF746C574A7478, 0x1068D6752EE81836]
    len := 64, estate := .absorbing, mode := .hmac, key := blockOf [0x6B, 0x65, 0x79], keyValid := true }

/-- The next state of an outcome, if it is one. -/
def nextOf : Host.Outcome State Fault Refusal → Option State
  | .next t => some t
  | .fault _ => none
  | .refused _ => none

/-- The state after a command that answers a next state. -/
def after (i : Instr) (s : State) : State := (nextOf (exec i s)).getD State.reset

/-- The state after a step that answers a next state. -/
def stepped (s : State) : State := (nextOf (step s)).getD State.reset

/-! ## The compression function and the padding (V-C, V-P) -/

/-- V-C3: `IV_TP2` and the block `i64`. -/
theorem test_compress_v_c3 :
    compress tp2.k tp2.iv (Vector.ofFn fun k => BitVec.ofNat 8 k.val) =
      #v[0x9E10E1A505F272B5, 0xBCBCE57B3796F759, 0x675F3A0F018B45B9, 0xA34B765AF2C3D8D9] := by decide +kernel

/-- V-C2, the round 1 row: after round 0 the XOR reads words of the same round. -/
theorem test_rounds_v_c2 :
    [0, 1].foldl (mixRound 3 (messageWords zeroBlock)) #v[1, 2, 3, 4] =
      #v[0x2401E012, 0x4805A01B, 0x6C01E024, 0x3C012036] := by decide +kernel

/-- V-P1 and V-P2: the shortest padding, and both units for `abc`. -/
theorem test_pad :
    pad .bytes 55 55 = [0x80, 0, 0, 0, 0, 0, 0, 0, 0x37] ∧ (pad .bytes 56 56).length = 72 ∧
      (pad .bits 3 3).drop 53 = [0, 0, 0, 0, 0, 0, 0, 0x18] ∧
      (pad .bits 0xFFFFFFFFFFFFFFFF 63).drop 64 = [0xF8] := by decide

/-! ## One step of each command (at most two theorems each) -/

/-- V-Z2: NOP clears LAST_ERR and leaves ERR. -/
theorem test_nop : statusWord (after .nop { fresh0 tp2 with err := 4, lastErr := 3, busy := true }) = 0x00000080 := by
  decide

/-- V-E1 row 32, and 33 from FINALIZED. -/
theorem test_init :
    statusWord (after .init (fresh0 tp2)) = 2 ∧ (after .init (finished tp1.iv 3)).words = tp2.iv ∧
      statusWord (after .init hmacKey) = 0x12 := by decide

/-- R86's example: `abc` absorbed in FRESH. -/
theorem test_absorb_abc :
    let t := after (.absorb 3) { inited tp2 with din := blockOf [0x61, 0x62, 0x63, 0xFF] }
    statusWord t = 0x00000304 ∧ t.len = 3 ∧ t.pend = blockOf [0x61, 0x62, 0x63] ∧ t.words = tp2.iv := by decide +kernel

/-- V-C2 through ABSORB 64: one compression of the block of zeros, and an empty buffer. -/
theorem test_absorb_64 :
    let t := after (.absorb 64) (inited tp1)
    t.words = #v[0x84C458E27758B3B4, 0xC237A83A2EF90CAD, 0x2F459468ADFAF6AE, 0x3A829CC1EFBB8EDD] ∧
      statusWord t = 0x00000004 := by decide +kernel

/-- V-H1, `abc` under TP2: the digest `ec279381 680a8923 ...`. -/
theorem test_final_abc :
    let t := after .final
      { inited tp2 with pend := blockOf [0x61, 0x62, 0x63], plen := 3, len := 3, estate := .absorbing }
    (digestBytes t.words).take 8 = [0xEC, 0x27, 0x93, 0x81, 0x68, 0x0A, 0x89, 0x23] ∧
      readReg t (.digest 7) = 0x8EF65EFC ∧ statusWord t = 6 ∧ t.mlen = 3 ∧ t.len = 64 := by decide +kernel

/-- V-M2: `HMAC("key", "")` = `f32aac2f a095ed9b ...`. -/
theorem test_final_hmac :
    let t := after .final hmacKey
    (digestBytes t.words).take 8 = [0xF3, 0x2A, 0xAC, 0x2F, 0xA0, 0x95, 0xED, 0x9B] ∧ statusWord t = 0x1E ∧
      t.mlen = 96 ∧ t.len = 128 := by decide +kernel

/-- V-Z1: ZEROIZE in the middle of an HMAC; ERR stays. -/
theorem test_zeroize :
    let t := after .zeroize { hmacKey with err := 0x5E, plen := 3, din := blockOf [0x6D] }
    statusWord t = 0x80 ∧ t.key = zeroBlock ∧ t.words = #v[0, 0, 0, 0] ∧ t.din = zeroBlock ∧ t.err = 0x5E := by
  decide +kernel

/-- R95's example: the key "key". -/
theorem test_keySet :
    let t := after (.keySet 3) { fresh0 tp2 with din := blockOf [0x6B, 0x65, 0x79, 0xFF] }
    t.key = blockOf [0x6B, 0x65, 0x79] ∧ statusWord t = 0x10 := by decide +kernel

/-- V-E1 rows 14, 16 and 17: an empty key, a long one, a change in the middle of an HMAC. -/
theorem test_keySet_errors :
    statusWord (after (.keySet 0) (fresh0 tp2)) = 0x00020080 ∧
      statusWord (after (.keySet 65) (fresh0 tp2)) = 0x00040080 ∧
      statusWord (after (.keySet 1) hmacKey) = 0x0002009C := by decide

/-- V-H4 and P4: the key block of an 80-byte key, all 64 bytes. -/
theorem test_keyFromDigest :
    let t := after .keyFromDigest
      (finished #v[0x968FC28C24CAD71B, 0xAB7B8DF3CF4B5545, 0x5D55D91C386CBEE5, 0x6E09E53B4F10DDC3] 80)
    t.key.toList = [0x1B, 0xD7, 0xCA, 0x24, 0x8C, 0xC2, 0x8F, 0x96, 0x45, 0x55, 0x4B, 0xCF, 0xF3, 0x8D, 0x7B, 0xAB,
      0xE5, 0xBE, 0x6C, 0x38, 0x1C, 0xD9, 0x55, 0x5D, 0xC3, 0xDD, 0x10, 0x4F, 0x3B, 0xE5, 0x09, 0x6E]
        ++ List.replicate 32 0 ∧ statusWord t = 0x16 := by decide +kernel

/-- V-E1 rows 19 to 21 and R96's bound: no digest, a message of 64 bytes, MODE = HMAC. -/
theorem test_keyFromDigest_errors :
    statusWord (after .keyFromDigest (fresh0 tp2)) = 0x00020080 ∧
      statusWord (after .keyFromDigest (finished tp1.iv 64)) = 0x00020086 ∧
      statusWord (after .keyFromDigest (finished tp1.iv 65)) = 0x00000016 ∧
      statusWord (after .keyFromDigest { hmacKey with estate := .finalized, mlen := 96 }) = 0x0002009E := by decide +kernel

/-- V-M3: the state after HMAC_START of "key". -/
theorem test_hmacStart :
    after .hmacStart { fresh0 tp2 with key := blockOf [0x6B, 0x65, 0x79], keyValid := true } = hmacKey := by
  decide +kernel

/-- V-E1 row 22. -/
theorem test_hmacStart_without_key : statusWord (after .hmacStart (fresh0 tp2)) = 0x00070080 := by decide

/-- V-Q1 rows 3, 4 and 5. -/
theorem test_ctEq_cmpb :
    let s := { fresh0 tp2 with din := blockOf [0x61, 0x62, 0x63], cmpb := blockOf [0x61, 0x62, 0x64] }
    statusWord (after (.ctEq 2 2 .cmpb) s) = 0x60 ∧ statusWord (after (.ctEq 3 3 .cmpb) s) = 0x40 ∧
      statusWord (after (.ctEq 2 3 .cmpb) s) = 0x40 := by decide +kernel

/-- V-Q2: a tag of 16 bytes, lengths that differ, and a digest operand of 33 bytes. -/
theorem test_ctEq_digest :
    let s := { finished #v[0x1122334455667788, 0, 0, 0] 3 with din := blockOf [0x88, 0x77, 0x66, 0x55], cmpValid := true }
    statusWord (after (.ctEq 4 4 .digest) s) = 0x66 ∧ statusWord (after (.ctEq 4 32 .digest) s) = 0x46 ∧
      statusWord (after (.ctEq 32 33 .digest) s) = 0x00040086 := by decide +kernel

/-- An illegal word: V-E1 rows 8 and 12, and a CT_EQ word with a reserved bit (R103, log entry 8). -/
theorem test_illegal_word :
    nextOf (performWord 0x00000005 { fresh0 tp2 with busy := true }) =
        some { fresh0 tp2 with err := 0x10, lastErr := 5 } ∧
      nextOf (performWord 0x01000020 { fresh0 tp2 with busy := true, cmpEq := true, cmpValid := true }) =
        some { fresh0 tp2 with err := 0x10, lastErr := 5 } := by decide +kernel

/-! ## The bus (V-B) -/

/-- A host access to the block of TP2 (`BASE = 0`) as the next turn. -/
def hostTurn (s : State) (addr size : Nat) (op : BusOp) : State := { s with turns := [.host ⟨addr, size, op⟩] }

/-- V-B1 row 4: DIN1 written and read back. -/
theorem test_bus_din :
    let t := stepped (hostTurn (fresh0 tp2) 0x44 4 (.write 0x44434241))
    t.din = blockOf [0, 0, 0, 0, 0x41, 0x42, 0x43, 0x44] ∧
      (stepped (hostTurn t 0x44 4 .read)).resps.head? = some (.data 0x44434241) := by decide +kernel

/-- V-B1 rows 3 and 5: a misaligned and a narrow access, and a write of STATUS. -/
theorem test_bus_errors :
    nextOf (step (hostTurn (fresh0 tp2) 0x42 4 .read)) = some { fresh0 tp2 with resps := [.busError 0] } ∧
      nextOf (step (hostTurn (fresh0 tp2) 0x00 1 (.write 1))) = some { fresh0 tp2 with resps := [.busError 0] } ∧
      nextOf (step (hostTurn (fresh0 tp2) 0x04 4 (.write 0xFFFFFFFF))) = some { fresh0 tp2 with resps := [.done] } := by
  decide +kernel

/-- V-B1 row 7. -/
theorem test_bus_err_w1c : (stepped (hostTurn { fresh0 tp2 with err := 0x5E } 0x08 4 (.write 0x00000006))).err = 0x58 := by
  decide +kernel

/-- P6: a write of DIN0 while INIT is pending. -/
theorem test_bus_busy_violation :
    let s := { fresh0 tp2 with busy := true, cmdLatch := 1 }
    nextOf (step (hostTurn s 0x40 4 (.write 0x11223344))) = some { s with err := 0x20, resps := [.done] } := by decide +kernel

/-- V-B2: reads while BUSY = 1. -/
theorem test_bus_reads_while_busy :
    let s := { inited tp2 with din := blockOf [0x61, 0x62, 0x63], busy := true, cmdLatch := 0x302, len := 5 }
    readReg s .status = 0x00000003 ∧ readReg s .lenLo = 0 ∧ readReg s (.digest 0) = 0 ∧
      readReg s (.din 0) = 0x00636261 := by decide +kernel

/-- V-B4: reset discards a pending INIT. -/
theorem test_reset_discards :
    nextOf (step { inited tp2 with busy := true, cmdLatch := 1, turns := [.reset] }) = some (fresh0 tp2) := by decide +kernel

/-- The host's command word reaches the engine in the very next step. -/
theorem test_withFetchWord :
    stepped ((fresh0 tp2).withFetchWord 32 0x00000001) = { inited tp2 with cmdLatch := 1 } := by decide +kernel

/-- R67: `verify` of a 5-byte tag, and the turns of its command with one early poll. -/
theorem test_host_syntax :
    verifyLines [1, 2, 3, 4, 5] =
        some [.wr 0x40 0x04030201, .wr 0x44 0x00000005, .wr 0x00 0x00A00520, .poll, .rd 0x04] ∧
      HostOp.turns 0x100 1 .poll =
        [.host ⟨0x104, 4, .read⟩, .engine, .host ⟨0x104, 4, .read⟩] := by decide

/-! ## Witnesses: states and operands that meet the hypotheses of the obligations, clause by clause

A hypothesis `exec i s = .next t`, `step s = .next t` or `performWord v s = .next t` is met with the `t` named by the
existential. -/

/-- A state under TP2 with a pending command word. -/
def pending (v : Word32) : State := { inited tp2 with busy := true, cmdLatch := v }

/-- A state in ABSORBING with `n` bytes pending. -/
def absorbingWith (n : Fin 64) : State := { inited tp2 with plen := n, len := BitVec.ofNat 64 n.val, estate := .absorbing }

theorem witness_DecodeEncodeRoundTrip :
    Instr.wellFormed (.absorb 127) = true ∧ Instr.wellFormed (.ctEq 127 127 .digest) = true := by decide

theorem witness_EncodeDecodeRoundTrip : decode 0x00FF7F20 = .ok (.ctEq 127 127 .digest) := by decide

theorem witness_IllegalWordsAreTheOnesR64Names :
    cmdOp 0x00000021 = 0x21 ∧ cmdRsv 0x00008000 ≠ 0 ∧ cmdRsv 0x80000000 ≠ 0 ∧
      (cmdOp 0x00000100 = 0x00 ∧ cmdLA 0x00000100 ≠ 0) ∧ (cmdOp 0x00010002 = 0x02 ∧ cmdLB 0x00010002 ≠ 0) ∧
      (cmdOp 0x00800010 = 0x10 ∧ cmdBsel 0x00800010 ≠ 0) := by decide

theorem witness_WordsDecodeToTheirTableRow :
    decode 0x00007F02 = .ok (.absorb 127) ∧ (⟨0x20, 0x00000020, 0xFF0080FF⟩ : OpcodeRow) ∈ opcodeTable ∧
      OpcodeRow.accepts ⟨0x20, 0x00000020, 0xFF0080FF⟩ 0x00FF7F20 = true := by decide

theorem witness_StepRunsTheDecodedCommand :
    (pending 0x00000302).busy = true ∧ decode (pending 0x00000302).cmdLatch = .ok (.absorb 3) ∧
      (pending 0x00000302).turns = [] ∧
      ({ pending 0x00000302 with turns := [.engine, .reset] } : State).turns = .engine :: [.reset] := by decide

theorem witness_EngineTurnWithoutCommandChangesNothing :
    (fresh0 tp2).busy = false ∧ (fresh0 tp2).turns = [] ∧
      ({ fresh0 tp2 with turns := [.engine] } : State).turns = .engine :: [] := by decide

theorem witness_IllegalWordOnlyReportsIllegalCmd :
    decode 0x00000005 = .error .unassignedOpcode ∧ cmdOp 0x00000005 ≠ 0x20 ∧
      decode 0x00008020 = .error .reservedBits ∧ cmdOp 0x00008020 = 0x20 := by decide

theorem witness_EngineTurnCompletesThePendingCommand :
    (pending 3).busy = true ∧ (pending 3).turns = [] ∧
      ({ pending 3 with turns := [.engine] } : State).turns = .engine :: [] := by decide

theorem witness_PendingCommandEndsWithinTheTurns :
    ∃ s : State, s.busy = true ∧ s.turns = [.host ⟨0, 4, .read⟩, .host ⟨255, 1, .read⟩] ∧ s.accessesInWindow :=
  ⟨{ pending 3 with turns := [.host ⟨0, 4, .read⟩, .host ⟨255, 1, .read⟩] }, rfl, rfl, by
    intro a ha
    simp only [List.mem_cons, Turn.host.injEq, List.not_mem_nil, or_false] at ha
    rcases ha with rfl | rfl <;> decide⟩

theorem witness_ErrorsChangeOnlyTheReports :
    (∃ t, performWord 0x00000000 (pending 0) = .next t ∧ t.lastErr = 0) ∧
      (∃ t, performWord 0x00410020 (pending 0) = .next t ∧ t.lastErr ≠ 0 ∧ cmdOp 0x00410020 = 0x20) ∧
      (∃ t, performWord 0x00000010 (pending 0) = .next t ∧ t.lastErr ≠ 0 ∧ cmdOp 0x00000010 ≠ 0x20) ∧
      (pending 0).busy = true := by
  refine ⟨⟨_, rfl, ?_⟩, ⟨_, rfl, ?_⟩, ⟨_, rfl, ?_⟩, rfl⟩ <;> decide

theorem witness_CommandsReportOnlyTheirCodes :
    (∃ t, performWord 0x00000004 (pending 0) = .next t) ∧ (∃ t, performWord 0x00004102 (pending 0) = .next t) ∧
      (∃ t, performWord 0x00000003 (fresh0 tp2) = .next t) ∧ (∃ t, performWord 0x00000010 (pending 0) = .next t) ∧
      (∃ t, performWord 0x00000011 (pending 0) = .next t) ∧ (∃ t, performWord 0x00000012 (pending 0) = .next t) ∧
      (∃ t, performWord 0x00410020 (pending 0) = .next t) ∧ (∃ t, performWord 0x000000FF (pending 0) = .next t) ∧
      cmdOp 0x000000FF ∉ opcodeTable.map (·.opcode) := by
  refine ⟨⟨_, rfl⟩, ⟨_, rfl⟩, ⟨_, rfl⟩, ⟨_, rfl⟩, ⟨_, rfl⟩, ⟨_, rfl⟩, ⟨_, rfl⟩, ⟨_, rfl⟩, ?_⟩
  decide

theorem witness_EstateFollowsTheTransitionTable :
    (∃ t, exec (.absorb 64) (fresh0 tp2) = .next t ∧ t.lastErr ≠ 0 ∧ (fresh0 tp2).estate = .idle) ∧
      (∃ t, exec (.absorb 0) (inited tp2) = .next t ∧ t.lastErr = 0) ∧
      (∃ t, exec .final (finished tp1.iv 3) = .next t ∧ (finished tp1.iv 3).estate = .finalized) := by
  refine ⟨⟨_, rfl, ?_, rfl⟩, ⟨_, rfl, ?_⟩, ⟨_, rfl, rfl⟩⟩ <;> decide

/-- For the statements about every step: steps of each agent that answer a next state, a host access with a ZEROIZE pending among
them. -/
theorem witness_steps :
    (∃ t, step (pending 0x00000004) = .next t) ∧
      (∃ t, step (hostTurn (pending 0x00000004) 0x40 4 (.write 1)) = .next t) ∧
      (∃ t, step { pending 1 with turns := [.reset] } = .next t) ∧
      (∃ t, step (hostTurn (fresh0 tp2) 0xBC 4 (.write 1)) = .next t) ∧
      (∃ t, step (hostTurn (fresh0 tp2) 0xFF 4 .read) = .next t) ∧ (∃ t, step (fresh0 tp2) = .next t) :=
  ⟨⟨_, rfl⟩, ⟨_, rfl⟩, ⟨_, rfl⟩, ⟨_, rfl⟩, ⟨_, rfl⟩, ⟨_, rfl⟩⟩

theorem witness_AbsorbStoresBytesThatDoNotFillTheBuffer :
    (inited tp2).estate = .fresh ∧ (inited tp2).plen.val + 63 < 64 ∧
      (absorbingWith 62).estate = .absorbing ∧ (absorbingWith 62).plen.val + 1 < 64 := by decide

theorem witness_AbsorbCompressesOnceWhenTheBufferFills :
    (inited tp2).estate = .fresh ∧ 64 ≤ (inited tp2).plen.val + 64 ∧ (inited tp2).plen.val + 64 - 64 < 64 ∧
      (absorbingWith 63).estate = .absorbing ∧ 64 ≤ (absorbingWith 63).plen.val + 64 ∧
      (absorbingWith 63).plen.val + 64 - 64 < 64 := by decide

theorem witness_AbsorbNoOpAndErrors :
    (finished tp1.iv 3).estate = .finalized ∧ 64 ≤ 64 ∧ 64 < 65 ∧ (fresh0 tp2).estate = .idle := by decide

theorem witness_FinalFinishesAPlainHash :
    (inited tp2).mode = .plain ∧ (inited tp2).estate = .fresh ∧ (absorbingWith 56).mode = .plain ∧
      (absorbingWith 56).estate = .absorbing := by decide

/-- In ABSORBING, and in FRESH, which no run reaches (log entry 12). -/
theorem witness_FinalFinishesAnHmac :
    (hmacKey.mode = .hmac ∧ hmacKey.estate = .absorbing) ∧
      (({ inited tp2 with mode := .hmac } : State).mode = .hmac ∧
        ({ inited tp2 with mode := .hmac } : State).estate = .fresh) := by decide

theorem witness_SecondFinalKeepsTheDigest : (finished tp1.iv 3).estate = .finalized := by decide

theorem witness_FinalInIdleIsNotInitialized : (fresh0 tp2).estate = .idle := by decide

theorem witness_KeySetLoadsTheKeyBlock :
    1 ≤ 64 ∧ ¬ ((finished tp1.iv 3).mode = .hmac ∧ (finished tp1.iv 3).estate = .absorbing) ∧
      ({ fresh0 { tp2 with allowEmptyKey := true } with busy := true } : State).params.allowEmptyKey = true := by decide

theorem witness_KeySetErrors :
    64 < 65 ∧ (fresh0 tp2).params.allowEmptyKey = false ∧ hmacKey.mode = .hmac ∧ hmacKey.estate = .absorbing := by
  decide

theorem witness_KeyFromDigestLoadsTheDigest :
    (finished tp1.iv 65).estate = .finalized ∧ (finished tp1.iv 65).mode = .plain ∧
      64 < (finished tp1.iv 65).mlen.toNat := by decide

theorem witness_KeyFromDigestErrors :
    (fresh0 tp2).estate ≠ .finalized ∧ hmacKey.mode = .hmac ∧ (finished tp1.iv 64).mlen.toNat ≤ 64 := by decide

theorem witness_HmacStartAbsorbsTheInnerPad : hmacKey.keyValid = true := by decide

theorem witness_HmacStartWithoutKeyIsKeyNotValid : (fresh0 tp2).keyValid = false := by decide

theorem witness_CtEqComparesTheOperands :
    64 ≤ 64 ∧ 32 ≤ 32 ∧ (finished tp1.iv 3).estate = .finalized := by decide

theorem witness_CtEqErrorsClearTheResult :
    64 < 65 ∧ 32 < 33 ∧ (OperandB.digest = .digest ∧ (inited tp2).estate ≠ .finalized) := by decide

theorem witness_ComparatorLaws :
    (zeroBlock[(63 : Fin 64)] ≠ (blockOf (List.replicate 63 0 ++ [1]))[(63 : Fin 64)]) ∧ (64 : Nat) ≠ 63 := by
  decide +kernel

theorem witness_CompressIsEightRoundsOfInPlaceSteps :
    (3 : Fin 4).val = ((3 : Fin 4).val + 4) % 4 ∧ (2 : Fin 4).val = ((3 : Fin 4).val + 7) % 4 := by decide

theorem witness_PaddingShapeAndLength :
    (63 < 64) ∧ (1 ≤ 63 ∧ 63 + 8 < (pad .bytes 56 56).length) ∧ (7 : Nat) < 8 := by decide

theorem witness_UpdateDependsOnlyOnTheConcatenation : ([[], [1]] : List (List Byte)) ≠ [] := by decide

theorem witness_EverySplitHashesToTheDigestFunction : ∃ t, HashRun (fresh0 tp2) [] t :=
  ⟨_, _, _, _, rfl, .start _, ⟨rfl, rfl, rfl, rfl, rfl, rfl, rfl, rfl, rfl⟩, rfl⟩

theorem witness_EverySplitHmacsToTheNestedHash :
    hmacKey.keyValid = true ∧ hmacKey.key = keyBlock hmacKey.params [0x6B, 0x65, 0x79] ∧ ∃ t, HmacRun hmacKey [] t := by
  refine ⟨rfl, by decide +kernel, ?_⟩
  obtain ⟨s₁, h₁⟩ : ∃ t, exec .hmacStart hmacKey = .next t := ⟨_, rfl⟩
  obtain ⟨t, ht⟩ : ∃ t, exec .final s₁ = .next t := by
    show ∃ t, runCommand (finalChecks s₁) finalEffect s₁ = .next t
    unfold runCommand
    split <;> exact ⟨_, rfl⟩
  exact ⟨t, s₁, s₁, s₁, h₁, .start _, ⟨rfl, rfl, rfl, rfl, rfl, rfl, rfl, rfl, rfl⟩, ht⟩

/-- A key of 3 bytes in DIN; for the second clause a run that hashes a key of 128 zero bytes (two ABSORBs of 64). -/
theorem witness_LoadedKeyBlockIsTheKeysBlock :
    (let s := { fresh0 tp2 with din := blockOf [0x6B, 0x65, 0x79] }
     s.din.toList.take 3 = [0x6B, 0x65, 0x79] ∧ ¬ (s.mode = .hmac ∧ s.estate = .absorbing)) ∧
      ∃ u, HashRun (fresh0 tp2) (List.replicate 128 0) u := by
  refine ⟨by decide +kernel, ?_⟩
  have same : ∀ s : State, SameEngine s s := fun _ => ⟨rfl, rfl, rfl, rfl, rfl, rfl, rfl, rfl, rfl⟩
  have next : ∀ (c : List (Bool × ErrCode)) (f : State → State) (s : State), ∃ t, runCommand c f s = .next t := by
    intro c f s
    unfold runCommand
    split <;> exact ⟨_, rfl⟩
  have din : ∀ s t : State, exec (.absorb 64) s = .next t → t.din = s.din := by
    intro s t h
    change runCommand _ _ s = _ at h
    unfold runCommand at h
    split at h <;> cases h
    · unfold update
      split <;> rfl
    · rfl
  obtain ⟨s₂, h₂⟩ := next (absorbChecks 64 (inited tp2)) (update (dinBytes 64 (inited tp2))) (inited tp2)
  obtain ⟨s₃, h₃⟩ := next (absorbChecks 64 s₂) (update (dinBytes 64 s₂)) s₂
  obtain ⟨u, hu⟩ := next (finalChecks s₃) finalEffect s₃
  have d₂ : dinBytes 64 s₂ = List.replicate 64 0 := by
    rw [dinBytes, din (inited tp2) s₂ h₂]
    decide +kernel
  have run := AbsorbRun.chunk (la := 64) (.chunk (la := 64) (.start (inited tp2)) (same _) (by decide) h₂) (same _)
    (by decide) h₃
  rw [d₂] at run
  exact ⟨u, inited tp2, s₃, s₃, rfl, run, same _, hu⟩

theorem witness_ReadsAnswerTheRegisterAndChangeNothing :
    (hostTurn (fresh0 tp2) 252 4 .read).turns = .host ⟨tp2.base + 252, 4, .read⟩ :: [] ∧ regAt 252 = .reserved := by
  decide

theorem witness_IllegalAccessIsABusErrorWithoutEffect :
    (hostTurn (fresh0 tp2) 255 4 .read).turns = .host ⟨255, 4, .read⟩ :: [] ∧
      (fresh0 tp2).params.base ≤ 255 ∧ 255 < (fresh0 tp2).params.base + 256 ∧ 255 % 4 ≠ 0 ∧ (8 : Nat) ≠ 4 := by decide

/-- BUSY = 1 at the offsets where the outcome changes: CMD, ERR, the ends of the windows and their neighbours. -/
theorem witness_DroppedAndIgnoredWrites_busy :
    ∀ off ∈ [0x00, 0x04, 0x08, 0x0C, 0x3C, 0x40, 0xBC, 0xC0, 0xFC], off < 256 ∧ off % 4 = 0 ∧
      (hostTurn (pending 1) off 4 (.write 7)).busy = true ∧
      (hostTurn (pending 1) off 4 (.write 7)).turns =
        .host ⟨(hostTurn (pending 1) off 4 (.write 7)).params.base + off, 4, .write 7⟩ :: [] := by decide

/-- BUSY = 0 at STATUS, a reserved offset, LEN_LO, MLEN_HI, DIGEST0, DIGEST7 and the last offset. -/
theorem witness_DroppedAndIgnoredWrites_idle :
    ∀ off ∈ [0x04, 0x0C, 0x10, 0x1C, 0x3C, 0xC0, 0xDC, 0xFC], off < 256 ∧ off % 4 = 0 ∧
      (hostTurn (fresh0 tp2) off 4 (.write 7)).busy = false ∧ off ≠ 0 ∧ off ≠ 8 ∧ (off < 0x40 ∨ 0xC0 ≤ off) ∧
      (hostTurn (fresh0 tp2) off 4 (.write 7)).turns =
        .host ⟨(hostTurn (fresh0 tp2) off 4 (.write 7)).params.base + off, 4, .write 7⟩ :: [] := by decide

theorem witness_CmdWriteLatchesTheCommand :
    (hostTurn (fresh0 tp2) 0 4 (.write 1)).busy = false ∧
      (hostTurn (fresh0 tp2) 0 4 (.write 1)).turns = .host ⟨(fresh0 tp2).params.base, 4, .write 1⟩ :: [] := by decide

theorem witness_WindowWriteStoresFourBytes :
    (fresh0 tp2).busy = false ∧
      (hostTurn (fresh0 tp2) 0x7C 4 (.write 1)).turns =
        .host ⟨tp2.base + 0x40 + 4 * (15 : Fin 16).val, 4, .write 1⟩ :: [] ∧
      (hostTurn (fresh0 tp2) 0x80 4 (.write 1)).turns =
        .host ⟨tp2.base + 0x80 + 4 * (0 : Fin 16).val, 4, .write 1⟩ :: [] := by decide

theorem witness_ErrWriteClearsTheOnesWritten :
    (hostTurn (pending 1) 8 4 (.write 0x7F)).turns = .host ⟨tp2.base + 8, 4, .write 0x7F⟩ :: [] := by decide

theorem witness_ResultRegistersShowOnlyFinishedResults :
    (pending 1).busy = true ∧ (inited tp2).busy = false ∧ (inited tp2).estate ≠ .finalized ∧
      (finished tp1.iv 3).busy = false ∧ (finished tp1.iv 3).estate = .finalized := by decide

/-- Two states that differ in the key, the buffer and the hidden words, and an access both answer. -/
theorem witness_HostAccessesDoNotRevealSecrets :
    SameVisible (inited tp2) { inited tp2 with words := #v[9, 9, 9, 9], key := blockOf [1], pend := blockOf [2] } ∧
      ∃ t, busAccess ⟨0xC0, 4, .read⟩ (inited tp2) = .next t :=
  ⟨⟨rfl, rfl, rfl, rfl, rfl, rfl, rfl, rfl, rfl, rfl, rfl, rfl, rfl, rfl, rfl, rfl, by decide⟩, ⟨_, rfl⟩⟩

theorem witness_ResetErasesTheBlock : ({ pending 1 with turns := [.reset] } : State).turns = .reset :: [] := by decide

/-- A state in the middle of an HMAC that meets the invariant and steps. -/
theorem witness_EveryStepKeepsTheInvariant :
    ({ hmacKey with busy := true, cmdLatch := 3 } : State).Inv ∧
      ∃ t, step { hmacKey with busy := true, cmdLatch := 3 } = .next t :=
  ⟨by decide +kernel, ⟨_, rfl⟩⟩

end Sys2Proof.Machine.Tests
end

/-! PROOFS. The parameters over every step, and the parity of `K` (00_scope.md R6, R7; 70_reset_and_hazards.md R126). -/

namespace Sys2Proof.Machine

/-! ## Each agent's turn keeps the parameters -/

theorem effectOf_params (i : Instr) (s : State) : (effectOf i s).params = s.params := by
  obtain ⟨-, -, -, -, hparams, -, -⟩ := effectOf_frame i s
  exact hparams

theorem writeReg_params (s : State) (r : Reg) (v : Word32) : (writeReg s r v).params = s.params := by
  obtain ⟨-, -, -, -, -, -, -, -, -, -, -, -, hparams, -, -⟩ := writeReg_frame s r v
  exact hparams

/-- No opcode is excepted, so `performWord_lift` is used with the empty list. -/
theorem performWord_params {v : Word32} {s t : State} (h : performWord v s = .next t) : t.params = s.params := by
  have hlift := performWord_lift (P := fun s t => t.params = s.params) (ops := [])
    (fun _ _ => ⟨rfl, rfl⟩) (fun i s => .inl (effectOf_params i s)) h
  simpa using hlift

theorem engineStep_params {s t : State} (h : engineStep s = .next t) : t.params = s.params := by
  rcases engineStep_cases h with ⟨-, hw⟩ | ⟨-, rfl⟩
  · exact performWord_params hw
  · rfl

theorem performAccess_params (off : Nat) (op : BusOp) (s : State) : (performAccess off op s).params = s.params := by
  rcases performAccess_cases off op s with h | ⟨v, -, h⟩ <;> rw [h, respond_params]
  exact writeReg_params s _ v

theorem busAccess_params {a : BusAccess} {s t : State} (h : busAccess a s = .next t) : t.params = s.params := by
  obtain ⟨-, ⟨-, rfl⟩ | ⟨-, rfl⟩⟩ := busAccess_cases h
  · rfl
  · exact performAccess_params _ _ s

/-- R126: whichever agent takes the turn, the parameters stay. -/
theorem step_params {s t : State} (h : step s = .next t) : t.params = s.params := by
  rcases step_cases h with ⟨-, he⟩ | ⟨rest, -, he⟩ | ⟨a, rest, -, ha⟩ | ⟨rest, -, rfl⟩
  · exact engineStep_params he
  · exact (engineStep_params he).trans (afterTurn_params s rest)
  · exact (busAccess_params ha).trans (afterTurn_params s rest)
  · rfl

end Sys2Proof.Machine

namespace Sys2Proof

/-- `K` is odd: its definition appends the bit 1 below `kHigh` (R7). -/
theorem Params.k_odd (p : Params) : p.k.getLsbD 0 = true := by
  rw [Params.k, BitVec.getLsbD_append]
  rfl

end Sys2Proof

/-- Settles O17: every agent's turn keeps the parameters (`step_params`), and bit 0 of `K` is the appended 1
(`Params.k_odd`). -/
theorem parametersNeverChangeAndMultiplierIsOdd : Obligations.ParametersNeverChangeAndMultiplierIsOdd :=
  ⟨fun _ _ => Sys2Proof.Machine.step_params, Sys2Proof.Params.k_odd⟩

/-! PROOFS. Every step of every agent keeps the invariants (10_state.md R20, R38..R42; 43_compare.md R103; 60_exceptions.md R111). -/

namespace Sys2Proof.Machine

/-! ## Host accesses, said once -/

/-- A host access answers exactly when its address is in the window; it is then a bus error response or a legal access. -/
theorem busAccess_eq_next_iff {a : BusAccess} {s t : State} :
    busAccess a s = .next t ↔
      inWindow s.params a.addr = true ∧
        ((accessLegal a = false ∧ t = respond (.busError 0) s) ∨
          (accessLegal a = true ∧ t = performAccess (a.addr - s.params.base) a.op s)) := by
  refine ⟨busAccess_cases, ?_⟩
  rintro ⟨hw, ⟨hl, rfl⟩ | ⟨hl, rfl⟩⟩ <;> simp [busAccess, hw, hl]

/-- The state after a host access: an answer alone, or the answer to a legal write and what the write does. -/
theorem busAccess_cases_write {a : BusAccess} {s t : State} (h : busAccess a s = .next t) :
    (∃ r, t = respond r s) ∨
      ∃ v, a.op = .write v ∧ inWindow s.params a.addr = true ∧ accessLegal a = true ∧
        t = respond .done (writeReg s (regAt (a.addr - s.params.base)) v) := by
  obtain ⟨hw, ⟨-, rfl⟩ | ⟨hl, rfl⟩⟩ := busAccess_cases h
  · exact .inl ⟨_, rfl⟩
  · rcases performAccess_cases (a.addr - s.params.base) a.op s with h | ⟨v, hop, h⟩
    · exact .inl ⟨_, h⟩
    · exact .inr ⟨v, hop, hw, hl, h⟩

/-! ## The hash engine's part of the invariant -/

/-- R38 to R41 and R20: what the invariant says of the hash engine.  It reads `words`, `PEND`, `PLEN`, `LEN`, `MLEN`, ESTATE,
MODE and the parameters, and nothing else. -/
def State.EngineInv (s : State) : Prop :=
  s.PlenMatchesLen ∧ s.PendClearAbovePlen ∧ s.IdleErased ∧ s.FreshInitial ∧ s.HmacUnderWay ∧ s.FinalizedDrained

theorem State.inv_iff (s : State) :
    s.Inv ↔ s.EngineInv ∧ s.KeyErased ∧ s.CompareBacked ∧ s.LastErrLegal := by
  simp only [State.Inv, State.EngineInv, and_assoc]

theorem State.EngineInv.congr {s t : State} (h : s.EngineInv)
    (heq : t.words = s.words ∧ t.pend = s.pend ∧ t.plen = s.plen ∧ t.len = s.len ∧ t.mlen = s.mlen
      ∧ t.estate = s.estate ∧ t.mode = s.mode ∧ t.params = s.params) : t.EngineInv := by
  obtain ⟨hwords, hpend, hplen, hlen, hmlen, hestate, hmode, hparams⟩ := heq
  unfold State.EngineInv State.PlenMatchesLen State.PendClearAbovePlen State.IdleErased State.FreshInitial
    State.HmacUnderWay State.FinalizedDrained
  rw [hwords, hpend, hplen, hlen, hmlen, hestate, hmode, hparams]
  exact h

/-- With no pending byte the buffer's rules come down to `LEN` being a whole number of blocks. -/
theorem engineInv_of_drained {s : State} (hpend : s.pend = zeroBlock) (hplen : s.plen = 0)
    (hlen : s.len.toNat % 64 = 0) (hidle : s.IdleErased) (hfresh : s.FreshInitial) (hmode : s.HmacUnderWay) :
    s.EngineInv := by
  refine ⟨?_, ?_, hidle, hfresh, hmode, fun _ => hplen⟩
  · simp [State.PlenMatchesLen, hplen, hlen]
  · intro k _
    simp [hpend]

/-- R38: absorbing `data` moves `PLEN` and `LEN` alike. -/
theorem feed_plenMatchesLen (data : List Byte) {s : State} (h : s.PlenMatchesLen) :
    (feed s.params.k s.absorber data).plen.val = (s.len + BitVec.ofNat 64 data.length).toNat % 64 := by
  have hp : s.absorber.plen.val = s.len.toNat % 64 := h
  rw [feed_plen, hp, BitVec.toNat_add, BitVec.toNat_ofNat]
  omega

theorem update_engineInv (data : List Byte) {s : State} (h : s.EngineInv) (hidle : s.estate ≠ .idle) :
    (update data s).EngineInv := by
  by_cases hf : s.estate = .finalized
  · rwa [update_of_finalized data hf]
  · obtain ⟨hplen, hpend, -, -, -, -⟩ := h
    have hest : s.estate.absorbed = .absorbing := by
      revert hidle hf; cases s.estate <;> simp [EState.absorbed]
    rw [update_of_ne data hf, hest]
    refine ⟨feed_plenMatchesLen data hplen, feed_clear s.params.k s.absorber data hpend, ?_, ?_, ?_, ?_⟩ <;>
      simp [State.IdleErased, State.FreshInitial, State.HmacUnderWay, State.FinalizedDrained]

/-- R41: a state that FINAL leaves, in either MODE. -/
theorem engineInv_of_finalized {s : State} (hest : s.estate = .finalized) (hpend : s.pend = zeroBlock)
    (hplen : s.plen = 0) (hlen : s.len.toNat % 64 = 0) : s.EngineInv :=
  engineInv_of_drained hpend hplen hlen (by simp [State.IdleErased, hest]) (by simp [State.FreshInitial, hest])
    (fun _ => .inr hest)

/-- R81: the padding fills the last block, so the padded length is a whole number of blocks. -/
theorem finalize_engineInv {s : State} (h : s.PlenMatchesLen) (hf : s.estate ≠ .finalized) :
    (finalize s).EngineInv := by
  rw [finalize_of_ne hf]
  refine engineInv_of_finalized rfl rfl rfl ?_
  have hp : s.plen.val = s.len.toNat % 64 := h
  simp only [BitVec.toNat_add, BitVec.toNat_ofNat]
  omega

theorem finalEffect_engineInv {s : State} (h : s.EngineInv) (hf : s.estate ≠ .finalized) :
    (finalEffect s).EngineInv := by
  obtain ⟨hplen, -⟩ := h
  unfold finalEffect
  split
  · exact finalize_engineInv hplen hf
  · rw [hmacFinish_of_ne hf]
    exact engineInv_of_finalized rfl rfl rfl (by simp)

theorem initEffect_engineInv (s : State) : (initEffect s).EngineInv :=
  engineInv_of_drained (by simp) (by simp) (by simp) (by simp [State.IdleErased]) (by simp [State.FreshInitial])
    (by simp [State.HmacUnderWay])

theorem zeroizeEffect_engineInv (s : State) : (zeroizeEffect s).EngineInv :=
  engineInv_of_drained (by simp) (by simp) (by simp) (by simp [State.IdleErased]) (by simp [State.FreshInitial])
    (by simp [State.HmacUnderWay])

theorem hmacStartEffect_engineInv (s : State) : (hmacStartEffect s).EngineInv := by
  rw [hmacStartEffect_eq]
  exact engineInv_of_drained rfl rfl (by simp) (by simp [State.IdleErased]) (by simp [State.FreshInitial])
    (by simp [State.HmacUnderWay])

/-! ## A command's effect, part by part -/

/-- ABSORB and FINAL keep the engine's part because of their checks, every other command whatever its checks. -/
theorem effectOf_engineInv {i : Instr} {s : State} (h : s.EngineInv) (hc : firstError (checksOf i s) = none) :
    (effectOf i s).EngineInv := by
  cases i with
  | nop => exact h
  | init => exact initEffect_engineInv s
  | absorb la =>
    rw [checksOf, absorbChecks_pass] at hc
    exact update_engineInv (dinBytes la s) h hc.2
  | final =>
    rw [checksOf, finalChecks_pass] at hc
    exact finalEffect_engineInv h hc.2
  | zeroize => exact zeroizeEffect_engineInv s
  | keySet la => exact h.congr (by simp [effectOf])
  | keyFromDigest => exact h.congr (by simp [effectOf])
  | hmacStart => exact hmacStartEffect_engineInv s
  | ctEq la lb b => exact h.congr (by simp [effectOf])

/-- R42: the key commands set KEY_VALID, ZEROIZE erases the key, and no other command writes either. -/
theorem effectOf_keyErased (i : Instr) {s : State} (h : s.KeyErased) : (effectOf i s).KeyErased := by
  rcases effectOf_key_frame i s with ⟨hkey, hvalid⟩ | hop
  · rwa [State.KeyErased, hkey, hvalid]
  · cases i with
    | keySet la => simp [State.KeyErased, effectOf]
    | keyFromDigest => simp [State.KeyErased, effectOf]
    | zeroize => simp [State.KeyErased, effectOf]
    | nop | init | absorb la | final | hmacStart | ctEq la lb b => simp [Instr.opcode] at hop

/-- No effect but those of CT_EQ and ZEROIZE writes CMP_EQ or CMP_VALID (R23). -/
theorem effectOf_compare_frame (i : Instr) (s : State) :
    ((effectOf i s).cmpEq = s.cmpEq ∧ (effectOf i s).cmpValid = s.cmpValid) ∨
      i.opcode ∈ ([0x20, 0x04] : List (BitVec 8)) := by
  cases i with
  | nop => simp [effectOf]
  | init => simp [effectOf]
  | absorb la => simp [effectOf]
  | final => simp only [effectOf, finalEffect]; left; split <;> simp
  | zeroize => simp [Instr.opcode]
  | keySet la => simp [effectOf]
  | keyFromDigest => simp [effectOf]
  | hmacStart => simp [effectOf, hmacStartEffect]
  | ctEq la lb b => simp [Instr.opcode]

/-- R103, R107: CT_EQ sets CMP_VALID, ZEROIZE clears both flags, and no other command writes either. -/
theorem effectOf_compareBacked (i : Instr) {s : State} (h : s.CompareBacked) : (effectOf i s).CompareBacked := by
  rcases effectOf_compare_frame i s with ⟨heq, hvalid⟩ | hop
  · rwa [State.CompareBacked, heq, hvalid]
  · cases i with
    | ctEq la lb b => simp [State.CompareBacked, effectOf]
    | zeroize => simp [State.CompareBacked, effectOf]
    | nop | init | absorb la | final | hmacStart | keySet la | keyFromDigest => simp [Instr.opcode] at hop

/-! ## How a command ends -/

/-- R112: LAST_ERR is 0 after a command that completes without error. -/
theorem complete_effectOf_inv {i : Instr} {s : State} (h : s.Inv) (hc : firstError (checksOf i s) = none) :
    (complete (effectOf i s)).Inv := by
  rw [State.inv_iff] at h ⊢
  obtain ⟨hengine, hkey, hcompare, -⟩ := h
  exact ⟨effectOf_engineInv hengine hc, effectOf_keyErased i hkey, effectOf_compareBacked i hcompare, by simp [State.LastErrLegal]⟩

/-- R111: the code of every error but BUSY_VIOLATION is legal in LAST_ERR. -/
theorem ErrCode.code_legal {c : ErrCode} (h : c ≠ .busyViolation) : c.code.toNat ≤ 7 ∧ c.code ≠ 6 := by
  revert h; cases c <;> decide

theorem raiseError_inv {c : ErrCode} {s : State} (h : s.Inv) (hc : c ≠ .busyViolation) : (raiseError c s).Inv := by
  rw [State.inv_iff] at h ⊢
  obtain ⟨hengine, hkey, hcompare, -⟩ := h
  exact ⟨hengine, hkey, hcompare, ErrCode.code_legal hc⟩

theorem raiseCompareError_inv {c : ErrCode} {s : State} (h : s.Inv) (hc : c ≠ .busyViolation) :
    (raiseCompareError c s).Inv := by
  rw [State.inv_iff] at h ⊢
  obtain ⟨hengine, hkey, -, -⟩ := h
  exact ⟨hengine, hkey, by simp [State.CompareBacked], ErrCode.code_legal hc⟩

theorem exec_inv {i : Instr} {s t : State} (h : s.Inv) (he : exec i s = .next t) : t.Inv := by
  rcases exec_cases he with ⟨hc, rfl⟩ | ⟨c, hc, rfl⟩
  · exact complete_effectOf_inv h hc
  · have hcode := checksOf_ne_busyViolation hc
    unfold raiseOf
    split
    · exact raiseCompareError_inv h hcode
    · exact raiseError_inv h hcode

theorem illegalCommand_inv (v : Word32) {s : State} (h : s.Inv) : (illegalCommand v s).Inv := by
  unfold illegalCommand
  split
  · exact raiseCompareError_inv h (by decide)
  · exact raiseError_inv h (by decide)

/-! ## Each agent's turn keeps the invariant -/

theorem engineStep_inv {s t : State} (h : s.Inv) (he : engineStep s = .next t) : t.Inv := by
  rcases engineStep_cases he with ⟨-, hw⟩ | ⟨-, rfl⟩
  · rcases performWord_cases s.cmdLatch s with ⟨i, -, hi⟩ | ⟨e, -, hi⟩ <;> rw [hi] at hw
    · exact exec_inv h hw
    · cases hw
      exact illegalCommand_inv _ h
  · exact h

/-- A write changes ERR, BUSY, CMDLATCH, DIN or CMPB, which the invariant does not read. -/
theorem writeReg_inv (r : Reg) (v : Word32) {s : State} (h : s.Inv) : (writeReg s r v).Inv := by
  rcases writeReg_cases s r v with hw | hw | hw | ⟨-, hw⟩ | ⟨m, -, -, hw⟩ | ⟨m, -, -, hw⟩ <;> rw [hw] <;> exact h

theorem busAccess_inv {a : BusAccess} {s t : State} (h : s.Inv) (ha : busAccess a s = .next t) : t.Inv := by
  rcases busAccess_cases_write ha with ⟨r, rfl⟩ | ⟨v, -, -, -, rfl⟩
  · exact h
  · exact writeReg_inv _ v h

/-- R124: whatever the state before it, the invariant holds after reset. -/
theorem resetBlock_inv (s : State) : (resetBlock s).Inv := by
  rw [State.inv_iff]
  exact ⟨engineInv_of_drained rfl rfl rfl (by simp [State.IdleErased]) (by simp [State.FreshInitial])
    (by simp [State.HmacUnderWay]), fun _ => rfl, by simp [State.CompareBacked],
    by simp [State.LastErrLegal]⟩

theorem step_inv {s t : State} (h : s.Inv) (ht : step s = .next t) : t.Inv := by
  rcases step_cases ht with ⟨-, he⟩ | ⟨rest, -, he⟩ | ⟨a, rest, -, ha⟩ | ⟨rest, -, rfl⟩
  · exact engineStep_inv h he
  · exact engineStep_inv (s := s.afterTurn rest) h he
  · exact busAccess_inv (s := s.afterTurn rest) h ha
  · exact resetBlock_inv _

end Sys2Proof.Machine

/-- Settles O60: every agent's turn keeps the invariants (`step_inv`). -/
theorem everyStepKeepsTheInvariant : Obligations.EveryStepKeepsTheInvariant :=
  fun _ _ => Sys2Proof.Machine.step_inv

/-- Settles O59: the reset state is what the reset event leaves of itself, and the reset event establishes the invariants from
every state (`resetBlock_inv`). -/
theorem invariantHoldsAtReset : Obligations.InvariantHoldsAtReset :=
  Sys2Proof.Machine.resetBlock_inv Sys2Proof.Machine.State.reset

/-! PROOFS. Who writes what, over every step: KEY, the hash state and the windows (10_state.md R16..R18, R22, R35; 42_hmac.md R101). -/

namespace Sys2Proof.Machine

/-- What a turn can do to a relation that error reports and answers keep, and that every successful effect keeps unless its opcode
is one of `ops`: the relation holds across it, or it is reset, or the engine completes one of `ops` without error, or it is a
host write. -/
theorem step_lift {P : State → State → Prop} {ops : List (BitVec 8)}
    (hafter : ∀ s rest t, P (s.afterTurn rest) t → P s t)
    (hresp : ∀ s r, P s (respond r s))
    (hidle : ∀ s, P s s)
    (hraise : ∀ s c, P s (raiseError c s) ∧ P s (raiseCompareError c s))
    (heff : ∀ i s, P s (complete (effectOf i s)) ∨ i.opcode ∈ ops)
    {s t : State} (h : step s = .next t) :
    P s t ∨ (∃ rest, s.turns = .reset :: rest) ∨
      (s.engineActs ∧ t.lastErr = 0 ∧ cmdOp s.cmdLatch ∈ ops) ∨
      ∃ addr v rest, s.turns = .host ⟨addr, 4, .write v⟩ :: rest ∧ inWindow s.params addr = true ∧
        t = respond .done (writeReg (s.afterTurn rest) (regAt (addr - s.params.base)) v) := by
  have hengine : ∀ {u : State}, engineStep u = .next t →
      P u t ∨ (u.busy = true ∧ t.lastErr = 0 ∧ cmdOp u.cmdLatch ∈ ops) := by
    intro u hu
    rcases engineStep_cases hu with ⟨hbusy, hw⟩ | ⟨-, rfl⟩
    · exact (performWord_lift hraise heff hw).imp_right fun hop => ⟨hbusy, hop⟩
    · exact .inl (hidle _)
  rcases step_cases h with ⟨hs, he⟩ | ⟨rest, hs, he⟩ | ⟨a, rest, hs, ha⟩ | ⟨rest, hs, -⟩
  · rcases hengine he with hP | ⟨hbusy, hop⟩
    · exact .inl hP
    · exact .inr (.inr (.inl ⟨⟨hbusy, .inl hs⟩, hop⟩))
  · rcases hengine he with hP | ⟨hbusy, hop⟩
    · exact .inl (hafter _ _ _ hP)
    · exact .inr (.inr (.inl ⟨⟨hbusy, .inr ⟨rest, hs⟩⟩, hop⟩))
  · rcases busAccess_cases_write ha with ⟨r, rfl⟩ | ⟨v, hop, hw, hl, rfl⟩
    · exact .inl (hafter _ _ _ (hresp _ r))
    · obtain ⟨addr, size, op⟩ := a
      obtain rfl : op = .write v := hop
      obtain ⟨rfl, -⟩ : size = 4 ∧ addr % 4 = 0 := by simpa [accessLegal] using hl
      exact .inr (.inr (.inr ⟨addr, v, rest, hs, hw, rfl⟩))
  · exact .inr (.inl ⟨rest, hs⟩)

/-- R50: a write to a register changes DIN or CMPB only with BUSY = 0 and only if it is one of the two windows' registers. -/
theorem writeReg_windows (s : State) (r : Reg) (v : Word32) :
    ((writeReg s r v).din = s.din ∧ (writeReg s r v).cmpb = s.cmpb) ∨
      (s.busy = false ∧ ∃ m, r = .din m ∨ r = .cmpb m) := by
  rcases writeReg_cases s r v with h | h | h | ⟨-, h⟩ | ⟨m, hr, hbusy, -⟩ | ⟨m, hr, hbusy, -⟩
  · exact .inl (by simp [h])
  · exact .inl (by simp [h])
  · exact .inl (by simp [h])
  · exact .inl (by simp [h])
  · exact .inr ⟨hbusy, m, .inl hr⟩
  · exact .inr ⟨hbusy, m, .inr hr⟩

end Sys2Proof.Machine

section
open Sys2Proof Sys2Proof.Machine

/-- Settles O14: only the effects of the key commands and ZEROIZE write KEY or KEY_VALID (`effectOf_key_frame`), and a host
write writes neither (`writeReg_frame`). -/
theorem keyChangesOnlyByKeyCommandsAndErasure : Obligations.KeyChangesOnlyByKeyCommandsAndErasure := by
  intro s t h
  rcases step_lift (P := fun s t => t.key = s.key ∧ t.keyValid = s.keyValid) (fun _ _ _ h => h) (fun _ _ => ⟨rfl, rfl⟩)
    (fun _ => ⟨rfl, rfl⟩) (fun _ _ => ⟨⟨rfl, rfl⟩, ⟨rfl, rfl⟩⟩) effectOf_key_frame h with
    hkeep | hreset | hengine | ⟨addr, v, rest, -, -, rfl⟩
  · exact .inl hkeep
  · exact .inr (.inl hreset)
  · exact .inr (.inr hengine)
  · obtain ⟨-, -, -, -, -, -, -, hkey, hvalid, -⟩ := writeReg_frame (s.afterTurn rest) (regAt (addr - s.params.base)) v
    exact .inl ⟨hkey, hvalid⟩

/-- Settles O15: only the effects of the five hash commands write the hash state (`effectOf_engine_frame`), and a host write
does not (`writeReg_frame`). -/
theorem engineStateChangesOnlyByHashCommands : Obligations.EngineStateChangesOnlyByHashCommands := by
  intro s t h
  rcases step_lift (P := fun s t => t.words = s.words ∧ t.pend = s.pend ∧ t.plen = s.plen ∧ t.len = s.len
      ∧ t.estate = s.estate) (fun _ _ _ h => h) (fun _ _ => ⟨rfl, rfl, rfl, rfl, rfl⟩)
    (fun _ => ⟨rfl, rfl, rfl, rfl, rfl⟩) (fun _ _ => ⟨⟨rfl, rfl, rfl, rfl, rfl⟩, ⟨rfl, rfl, rfl, rfl, rfl⟩⟩)
    effectOf_engine_frame h with hkeep | hreset | hengine | ⟨addr, v, rest, -, -, rfl⟩
  · exact .inl hkeep
  · exact .inr (.inl hreset)
  · exact .inr (.inr hengine)
  · obtain ⟨hwords, hpend, hplen, hlen, -, hestate, -⟩ :=
      writeReg_frame (s.afterTurn rest) (regAt (addr - s.params.base)) v
    exact .inl ⟨hwords, hpend, hplen, hlen, hestate⟩

/-- Settles O16: only ZEROIZE's effect writes the windows (`effectOf_window_frame`), and a host write reaches them only with
BUSY = 0 and at their own offsets (`writeReg_windows`, `regAt_din_range`, `regAt_cmpb_range`). -/
theorem windowsChangeOnlyByHostAndErasure : Obligations.WindowsChangeOnlyByHostAndErasure := by
  intro s t h
  rcases step_lift (P := fun s t => t.din = s.din ∧ t.cmpb = s.cmpb) (ops := [0x04]) (fun _ _ _ h => h)
    (fun _ _ => ⟨rfl, rfl⟩) (fun _ => ⟨rfl, rfl⟩) (fun _ _ => ⟨⟨rfl, rfl⟩, ⟨rfl, rfl⟩⟩)
    (fun i s => by simpa using effectOf_window_frame i s) h with
    hkeep | hreset | ⟨hacts, hok, hop⟩ | ⟨addr, v, rest, hs, hw, rfl⟩
  · exact .inl hkeep
  · exact .inr (.inl hreset)
  · exact .inr (.inr (.inl ⟨hacts, hok, by simpa using hop⟩))
  · rcases writeReg_windows (s.afterTurn rest) (regAt (addr - s.params.base)) v with hkeep | ⟨hbusy, m, hr⟩
    · exact .inl hkeep
    · have hoff : 0x40 ≤ addr - s.params.base ∧ addr - s.params.base < 0xC0 :=
        hr.elim regAt_din_range regAt_cmpb_range
      exact .inr (.inr (.inr ⟨hbusy, addr, v, rest, hs, by omega, by omega⟩))

end

/-! PROOFS. The register window: the map, what STATUS, ERR and the result registers read, and what a legal write does
(10_state.md R30..R36; 20_memory.md R47, R50; 70_reset_and_hazards.md R129). -/

namespace Sys2Proof.Machine

/-! ## The register map -/

theorem regAt_din (m : Fin 16) : regAt (0x40 + 4 * m.val) = .din m := by revert m; decide

theorem regAt_cmpb (m : Fin 16) : regAt (0x80 + 4 * m.val) = .cmpb m := by revert m; decide

theorem regAt_digest (m : Fin 8) : regAt (0xC0 + 4 * m.val) = .digest m := by revert m; decide

/-- R37: the aligned offsets the map does not name are 0x0C, 0x20 to 0x3C and 0xE0 to 0xFC. -/
theorem regAt_reserved_iff (n : Fin 64) :
    regAt (4 * n.val) = .reserved ↔ n.val = 3 ∨ (8 ≤ n.val ∧ n.val ≤ 15) ∨ 56 ≤ n.val := by revert n; decide

/-! ## Legal writes -/

/-- R46, R50: a 32-bit host write at an aligned offset of the window is performed and answered. -/
theorem step_of_legal_write {s : State} {off : Nat} {v : Word32} {rest : List Turn}
    (h : s.turns = .host ⟨s.params.base + off, 4, .write v⟩ :: rest) (hw : off < 256) (hl : off % 4 = 0) :
    step s = .next (respond .done (writeReg (s.afterTurn rest) (regAt off) v)) := by
  rw [step_of_host h]
  exact busAccess_of_legal (s := s.afterTurn rest) hw hl

theorem writeReg_cmd_of_idle {s : State} (h : s.busy = false) (v : Word32) :
    writeReg s .cmd v = { s with cmdLatch := v, busy := true } := by simp [writeReg, h]

theorem writeReg_din_of_idle {s : State} (h : s.busy = false) (m : Fin 16) (v : Word32) :
    writeReg s (.din m) v = { s with din := setLane s.din m v } := by simp [writeReg, h]

theorem writeReg_cmpb_of_idle {s : State} (h : s.busy = false) (m : Fin 16) (v : Word32) :
    writeReg s (.cmpb m) v = { s with cmpb := setLane s.cmpb m v } := by simp [writeReg, h]

/-! ## The ERR register -/

/-- R33: ERR reads its seven bits, with zeros above. -/
theorem errWord_getLsbD (s : State) (n : Nat) : (errWord s).getLsbD n = (decide (n < 7) && s.err.getLsbD n) := by
  by_cases h : n < 7
  · simp [errWord, h, show n < 32 by omega]
  · simp [errWord, h, BitVec.getLsbD_of_ge s.err n (by omega)]

/-- R33: an error of code `c` has the sticky bit `c - 1`, one of the seven. -/
theorem ErrCode.errBit_getLsbD (c : ErrCode) :
    c.code.toNat - 1 < 7 ∧ c.errBit.getLsbD (c.code.toNat - 1) = true := by cases c <;> decide

/-- R33: reporting an error sets its bit of ERR. -/
theorem errWord_raiseError_getLsbD (c : ErrCode) (s : State) :
    (errWord (raiseError c s)).getLsbD (c.code.toNat - 1) = true := by
  obtain ⟨hlt, hbit⟩ := ErrCode.errBit_getLsbD c
  simp [errWord_getLsbD, hlt, hbit]

/-- R33, R128: a dropped write sets ERR[5]. -/
theorem errWord_busyViolation_getLsbD (s : State) : (errWord (busyViolation s)).getLsbD 5 = true := by
  simp [errWord_getLsbD, BitVec.getLsbD_or, ErrCode.errBit, ErrCode.code]

/-- R33: a write of `v` clears the bits that are 1 in `v`. -/
theorem errWord_clearErr_getLsbD (v : Word32) (s : State) (n : Nat) :
    (errWord (clearErr v s)).getLsbD n = (decide (n < 7) && s.err.getLsbD n && !v.getLsbD n) := by
  rw [errWord_getLsbD]
  by_cases h : n < 7
  · simp [h]
  · simp [h]

/-! ## The digest registers -/

/-- R36, R48: DIGEST(2i) and DIGEST(2i+1) are the halves of `words[i]`. -/
theorem laneWord_digestBytes (w : Words) (m : Fin 8) :
    laneWord (blockOf (digestBytes w)) (m.castLE (by decide)) =
      (w[m.val / 2]'(by omega)).extractLsb' (32 * (m.val % 2)) 32 := by
  apply BitVec.eq_of_getLsbD_eq
  intro n hn
  have hpos : 4 * m.val + n / 8 = 8 * (m.val / 2) + (4 * (m.val % 2) + n / 8) := by omega
  have hbyte := digestBytes_getD w ⟨m.val / 2, by omega⟩ (4 * (m.val % 2) + n / 8) (by omega)
  have hbit : 8 * (4 * (m.val % 2) + n / 8) + n % 8 = 32 * (m.val % 2) + n := by omega
  rw [laneWord_getLsbD _ _ _ hn, blockOf_getElem]
  simp only [Fin.val_castLE, hpos, hbyte, BitVec.getLsbD_extractLsb', hbit, hn, Nat.mod_lt n (show 0 < 8 by decide)]
  rfl

theorem digestReadable_iff (s : State) : digestReadable s = true ↔ s.busy = false ∧ s.estate = .finalized := by
  simp [digestReadable]

end Sys2Proof.Machine

section
open Sys2Proof Sys2Proof.Machine

/-- Settles O53: the write reaches its register (`regAt_din`, `regAt_cmpb`), which sets the four bytes (`setLane_getElem`) and
then reads back the value (`laneWord_setLane`). -/
theorem windowWriteStoresFourBytes : Obligations.WindowWriteStoresFourBytes := by
  intro s m v rest hbusy
  have hidle : (s.afterTurn rest).busy = false := hbusy
  refine ⟨fun h => ⟨setLane s.din m v, ?_, fun k => setLane_getElem s.din m v k.val k.isLt, laneWord_setLane s.din m v⟩,
    fun h => ⟨setLane s.cmpb m v, ?_, fun k => setLane_getElem s.cmpb m v k.val k.isLt, laneWord_setLane s.cmpb m v⟩⟩
  · rw [Nat.add_assoc] at h
    rw [step_of_legal_write h (by omega) (by omega), regAt_din, writeReg_din_of_idle hidle]
    rfl
  · rw [Nat.add_assoc] at h
    rw [step_of_legal_write h (by omega) (by omega), regAt_cmpb, writeReg_cmpb_of_idle hidle]
    rfl

/-- Settles O55: each field is found at its position in the concatenation that `statusWord` is. -/
theorem statusFields : Obligations.StatusFields := by
  intro s
  refine ⟨?busy, ?estate, ?mode, ?keyValid, ?cmpEq, ?cmpValid, ?errAny, ?plen, ?zero15, ?lastErr, ?zeroTop⟩ <;>
    simp (disch := decide) only [readReg, statusWord, BitVec.extractLsb'_append_eq_of_add_le,
      BitVec.extractLsb'_append_eq_of_le]
  case plen => rw [BitVec.extractLsb'_eq_self, BitVec.toNat_ofNat, Nat.mod_eq_of_lt (by omega)]
  case zero15 => rfl
  case zeroTop => rfl
  all_goals exact BitVec.extractLsb'_eq_self

/-- Settles O56: LEN and MLEN are hidden while BUSY = 1, and the digest is readable with BUSY = 0 in FINALIZED alone
(`digestReadable_iff`), where its registers are the halves of the state words (`laneWord_digestBytes`). -/
theorem resultRegistersShowOnlyFinishedResults : Obligations.ResultRegistersShowOnlyFinishedResults := by
  intro s
  refine ⟨fun hbusy => ?_, fun hbusy => ?_, fun h m => ?_, fun hbusy hfin m => ?_⟩
  · simp [readReg, hiddenWhileBusy, hbusy]
  · simp [readReg, hiddenWhileBusy, hbusy]
  · have hhidden : ¬ digestReadable s = true := by
      rw [digestReadable_iff]
      rintro ⟨hidle, hfin⟩
      simp [hidle, hfin] at h
    exact if_neg hhidden
  · exact (if_pos ((digestReadable_iff s).2 ⟨hbusy, hfin⟩)).trans (laneWord_digestBytes s.words m)

/-- Settles O48: each row of the map is one offset, or one family of offsets. -/
theorem registerMap : Obligations.RegisterMap :=
  ⟨rfl, rfl, rfl, rfl, rfl, rfl, rfl, fun m => ⟨regAt_din m, regAt_cmpb m⟩, regAt_digest, regAt_reserved_iff⟩

/-- Settles O52: CMD is the register at offset 0, and with BUSY = 0 its write latches the word (`writeReg_cmd_of_idle`). -/
theorem cmdWriteLatchesTheCommand : Obligations.CmdWriteLatchesTheCommand := by
  intro s v rest hbusy h
  have hidle : (s.afterTurn rest).busy = false := hbusy
  have hcmd : regAt 0 = .cmd := rfl
  rw [step_of_legal_write (off := 0) h (by decide) (by decide), hcmd, writeReg_cmd_of_idle hidle]
  rfl

/-- Settles O54: the bits of ERR after a write (`errWord_clearErr_getLsbD`), after an error (`errWord_raiseError_getLsbD`) and
after a dropped write (`errWord_busyViolation_getLsbD`). -/
theorem errWriteClearsTheOnesWritten : Obligations.ErrWriteClearsTheOnesWritten := by
  refine fun s => ⟨fun v rest h => ⟨(clearErr v s).err, ?_, fun n => errWord_clearErr_getLsbD v s n.val⟩,
    fun c => errWord_raiseError_getLsbD c s, errWord_busyViolation_getLsbD s⟩
  rw [step_of_legal_write h (by decide) (by decide)]
  rfl

end

/-! PROOFS. No host access tells apart states that differ only in what a host cannot read (10_state.md R16, R17, R22, R25, R36). -/

namespace Sys2Proof.Machine

/-- The state with other values of what a host cannot read: `PEND`, `KEY`, CMDLATCH and, while the digest is not readable,
`words`. -/
def State.withHidden (s : State) (words : Words) (pend key : Block) (cmdLatch : Word32) : State :=
  { s with words := words, pend := pend, key := key, cmdLatch := cmdLatch }

theorem sameVisible_withHidden {s : State} {w : Words} (h : digestReadable s = true → s.words = w)
    (p k : Block) (c : Word32) : SameVisible s (s.withHidden w p k c) :=
  ⟨rfl, rfl, rfl, rfl, rfl, rfl, rfl, rfl, rfl, rfl, rfl, rfl, rfl, rfl, rfl, rfl, h⟩

/-- States that look the same are one state with two hidden parts. -/
theorem sameVisible_iff {s t : State} :
    SameVisible s t ↔ ∃ w p k c, (digestReadable s = true → s.words = w) ∧ t = s.withHidden w p k c := by
  constructor
  · rintro ⟨hplen, hlen, hmlen, hestate, hmode, hkeyValid, hcmpEq, hcmpValid, herr, hlastErr, hbusy, hdin, hcmpb,
      hparams, hturns, hresps, hwords⟩
    refine ⟨t.words, t.pend, t.key, t.cmdLatch, hwords, ?_⟩
    simp only [State.withHidden, hplen, hlen, hmlen, hestate, hmode, hkeyValid, hcmpEq, hcmpValid, herr, hlastErr,
      hbusy, hdin, hcmpb, hparams, hturns, hresps]
  · rintro ⟨w, p, k, c, hwords, rfl⟩
    exact sameVisible_withHidden hwords p k c

/-- R49: every register reads the same, since only the digest shows a hidden part, and only while it is readable. -/
theorem readReg_of_sameVisible {s t : State} (h : SameVisible s t) (r : Reg) : readReg t r = readReg s r := by
  obtain ⟨w, p, k, c, hwords, rfl⟩ := sameVisible_iff.1 h
  cases r with
  | digest m =>
    have hreadable : digestReadable (s.withHidden w p k c) = digestReadable s := rfl
    simp only [readReg, hreadable]
    split
    · next hd => rw [hwords hd]; rfl
    · rfl
  | cmd | status | err | lenLo | lenHi | mlenLo | mlenHi | din m | cmpb m | reserved => rfl

/-- R50: no write makes the digest readable. -/
theorem digestReadable_of_writeReg {s : State} {r : Reg} {v : Word32} (h : digestReadable (writeReg s r v) = true) :
    digestReadable s = true := by
  rw [digestReadable_iff] at h ⊢
  obtain ⟨hidle, hfin⟩ := h
  obtain ⟨-, -, -, -, -, hestate, -⟩ := writeReg_frame s r v
  refine ⟨?_, hestate ▸ hfin⟩
  cases hbusy : s.busy with
  | false => rfl
  | true =>
    obtain ⟨hstays, -⟩ := writeReg_busy_frame hbusy r v
    rw [hstays] at hidle
    cases hidle

/-- R50: a write does not read the hidden parts, and of them it can replace CMDLATCH alone. -/
theorem writeReg_withHidden (s : State) (w : Words) (p k : Block) (c : Word32) (r : Reg) (v : Word32) :
    ∃ c', writeReg (s.withHidden w p k c) r v = (writeReg s r v).withHidden w p k c' := by
  have hbusy : (s.withHidden w p k c).busy = s.busy := rfl
  cases r with
  | cmd =>
    cases hb : s.busy with
    | true => exact ⟨c, by simp only [writeReg, hbusy, hb]; rfl⟩
    | false => exact ⟨v, by simp only [writeReg, hbusy, hb]; rfl⟩
  | din m => exact ⟨c, by simp only [writeReg, hbusy]; split <;> rfl⟩
  | cmpb m => exact ⟨c, by simp only [writeReg, hbusy]; split <;> rfl⟩
  | err | status | lenLo | lenHi | mlenLo | mlenHi | digest m | reserved => exact ⟨c, rfl⟩

theorem respond_sameVisible {s t : State} (h : SameVisible s t) (r : BusResp) :
    SameVisible (respond r s) (respond r t) := by
  obtain ⟨w, p, k, c, hwords, rfl⟩ := sameVisible_iff.1 h
  exact sameVisible_withHidden (s := respond r s) hwords p k c

theorem writeReg_sameVisible {s t : State} (h : SameVisible s t) (r : Reg) (v : Word32) :
    SameVisible (writeReg s r v) (writeReg t r v) := by
  obtain ⟨w, p, k, c, hwords, rfl⟩ := sameVisible_iff.1 h
  obtain ⟨c', hw⟩ := writeReg_withHidden s w p k c r v
  obtain ⟨hkeep, -⟩ := writeReg_frame s r v
  rw [hw]
  exact sameVisible_withHidden (fun hd => hkeep.trans (hwords (digestReadable_of_writeReg hd))) p k c'

theorem performAccess_sameVisible {s t : State} (h : SameVisible s t) (off : Nat) (op : BusOp) :
    SameVisible (performAccess off op s) (performAccess off op t) := by
  cases op with
  | read =>
    simp only [performAccess, readReg_of_sameVisible h]
    exact respond_sameVisible h _
  | write v => exact respond_sameVisible (writeReg_sameVisible h _ v) .done

/-- Which accesses are answered depends on the parameters alone, and what they answer and leave on what a host can see. -/
theorem busAccess_sameVisible {s t s' : State} {a : BusAccess} (h : SameVisible s t) (ha : busAccess a s = .next s') :
    ∃ t', busAccess a t = .next t' ∧ SameVisible s' t' := by
  have hparams : t.params = s.params := by
    obtain ⟨w, p, k, c, -, rfl⟩ := sameVisible_iff.1 h
    rfl
  obtain ⟨hw, ⟨hl, rfl⟩ | ⟨hl, rfl⟩⟩ := busAccess_eq_next_iff.1 ha
  · exact ⟨_, busAccess_eq_next_iff.2 ⟨hparams ▸ hw, .inl ⟨hl, rfl⟩⟩, respond_sameVisible h _⟩
  · exact ⟨_, busAccess_eq_next_iff.2 ⟨hparams ▸ hw, .inr ⟨hl, rfl⟩⟩, hparams ▸ performAccess_sameVisible h _ _⟩

end Sys2Proof.Machine

/-- Settles O57: an access that one of two states that look the same answers, the other answers alike, and they go on looking
the same (`busAccess_sameVisible`). -/
theorem hostAccessesDoNotRevealSecrets : Obligations.HostAccessesDoNotRevealSecrets :=
  fun _ _ _ _ => Sys2Proof.Machine.busAccess_sameVisible

/-! PROOFS. Legal reads, the bytes of the windows, and bus errors (10_state.md R35, R37; 20_memory.md R46, R47, R49). -/

namespace Sys2Proof.Machine

/-- R46, R49: a 32-bit host read at an aligned offset of the window answers the register. -/
theorem step_of_legal_read {s : State} {off : Nat} {rest : List Turn}
    (h : s.turns = .host ⟨s.params.base + off, 4, .read⟩ :: rest) (hw : off < 256) (hl : off % 4 = 0) :
    step s = .next (respond (.data (readReg s (regAt off))) (s.afterTurn rest)) := by
  have hreg : readReg (s.afterTurn rest) (regAt off) = readReg s (regAt off) := by cases regAt off <;> rfl
  rw [step_of_host h, ← hreg]
  exact busAccess_of_legal (s := s.afterTurn rest) hw hl

/-- R35, R47: byte lane `t` of register `m` of a window is byte `4m + t`. -/
theorem laneWord_extractLsb' (b : Block) (m : Fin 16) (t : Fin 4) :
    (laneWord b m).extractLsb' (8 * t.val) 8 = b[4 * m.val + t.val] := by
  apply BitVec.eq_of_getLsbD_eq
  intro n hn
  have hbyte : (8 * t.val + n) / 8 = t.val := by omega
  have hbit : (8 * t.val + n) % 8 = n := by omega
  rw [BitVec.getLsbD_extractLsb', laneWord_getLsbD b m _ (by omega)]
  simp only [hn, hbyte, hbit, decide_true, Bool.true_and]

theorem accessLegal_eq_false_iff (a : BusAccess) : accessLegal a = false ↔ a.size ≠ 4 ∨ a.addr % 4 ≠ 0 := by
  simp only [accessLegal, Bool.and_eq_false_iff, beq_eq_false_iff_ne]

theorem inWindow_iff (p : Params) (addr : Nat) : inWindow p addr = true ↔ p.base ≤ addr ∧ addr < p.base + 256 := by
  rw [inWindow, Bool.and_eq_true, decide_eq_true_eq, decide_eq_true_eq, windowSize]

end Sys2Proof.Machine

section
open Sys2Proof Sys2Proof.Machine

/-- Settles O49: a legal read answers its register (`step_of_legal_read`), a reserved offset reads 0 and ignores writes by
`readReg` and `writeReg`, and the lanes of DIN and CMPB are bytes of their windows (`laneWord_extractLsb'`). -/
theorem readsAnswerTheRegisterAndChangeNothing : Obligations.ReadsAnswerTheRegisterAndChangeNothing := by
  intro s
  refine ⟨fun off rest hw hl h => ⟨step_of_legal_read h hw hl, fun hreserved => ?_⟩, rfl,
    fun m t => ⟨laneWord_extractLsb' s.din m t, laneWord_extractLsb' s.cmpb m t⟩⟩
  rw [hreserved]
  exact ⟨rfl, fun _ => rfl⟩

/-- Settles O50: the access is to the window (`inWindow_iff`) and not legal (`accessLegal_eq_false_iff`), so the bus error is
all that happens (`busAccess_eq_next_iff`). -/
theorem illegalAccessIsABusErrorWithoutEffect : Obligations.IllegalAccessIsABusErrorWithoutEffect := by
  intro s a rest h hlow hhigh hillegal
  have hw : inWindow s.params a.addr = true := (inWindow_iff _ _).2 ⟨hlow, hhigh⟩
  have hl : accessLegal a = false := (accessLegal_eq_false_iff a).2 hillegal
  rw [step_of_host h]
  exact busAccess_eq_next_iff.2 ⟨hw, .inl ⟨hl, rfl⟩⟩

end

/-! PROOFS. The decoder and the encoder against each other, against R64's list of illegal words and against the opcode table
(30_encoding.md R61, R63, R64). -/

namespace Sys2Proof

/-! ## From a command to its word and back -/

@[simp] theorem decodePlain_assemble (op : BitVec 8) (i : Instr) : decodePlain (assemble op 0#7 0#7 0#1) i = .ok i := by
  simp [decodePlain]

@[simp] theorem decodeLA_assemble (op : BitVec 8) (la : BitVec 7) (i : Nat → Instr) :
    decodeLA (assemble op la 0#7 0#1) i = .ok (i la.toNat) := by
  simp [decodeLA]

/-- R61: a length that fits its 7-bit field is read back whole. -/
theorem mod_eq_of_fitsLengthField {n : Nat} (h : fitsLengthField n = true) : n % 128 = n :=
  Nat.mod_eq_of_lt (of_decide_eq_true h)

/-- R61, R63: the word of a well-formed command decodes to it.  Its opcode selects the command's own branch of the decoder, which
reads the fields it was assembled from. -/
theorem decode_encode {i : Instr} (h : i.wellFormed = true) : decode (encode i) = .ok i := by
  cases i with
  | nop | init | final | zeroize | keyFromDigest | hmacStart => simp [decode, encode]
  | absorb la | keySet la =>
    have hla : la % 128 = la := mod_eq_of_fitsLengthField h
    simp [decode, encode, hla]
  | ctEq la lb b =>
    obtain ⟨hfitA, hfitB⟩ : fitsLengthField la = true ∧ fitsLengthField lb = true := by
      simpa [Instr.wellFormed] using h
    have hla : la % 128 = la := mod_eq_of_fitsLengthField hfitA
    have hlb : lb % 128 = lb := mod_eq_of_fitsLengthField hfitB
    simp [decode, encode, hla, hlb]

/-! ## Legal words -/

/-- The words R64 leaves legal: an opcode of R63, no reserved bit, and zero in every field the opcode marks "0". -/
def LegalWord (v : Word32) : Prop :=
  cmdOp v ∈ opcodeTable.map (·.opcode) ∧ cmdRsv v = 0 ∧
    (cmdOp v ∉ ([0x02, 0x10, 0x20] : List (BitVec 8)) → cmdLA v = 0) ∧
    (cmdOp v ≠ 0x20 → cmdLB v = 0 ∧ cmdBsel v = 0)

theorem legalWord_encode (i : Instr) : LegalWord (encode i) := by
  cases i <;> simp [LegalWord, encode, opcodeTable]

/-- A legal word is some command's: its opcode names the command, its fields are the operands. -/
theorem exists_encode_eq_of_legalWord {v : Word32} (h : LegalWord v) : ∃ i : Instr, i.wellFormed = true ∧ encode i = v := by
  obtain ⟨hop, hrsv, hla, hlb⟩ := h
  have hfields : assemble (cmdOp v) (cmdLA v) (cmdLB v) (cmdBsel v) = v := assemble_fields v hrsv
  have fits (x : BitVec 7) : fitsLengthField x.toNat = true := by simpa [fitsLengthField] using x.isLt
  have plain (op : BitVec 8) (ho : cmdOp v = op) (hnot : op ∉ ([0x02, 0x10, 0x20] : List (BitVec 8))) :
      assemble op 0 0 0 = v := by
    obtain ⟨hB, hS⟩ := hlb fun h20 => hnot (by simp [← ho, h20])
    rw [← hfields, ho, hla (ho ▸ hnot), hB, hS]
  have withLA (op : BitVec 8) (ho : cmdOp v = op) (hnot : op ≠ 0x20) : assemble op (cmdLA v) 0 0 = v := by
    obtain ⟨hB, hS⟩ := hlb (ho ▸ hnot)
    rw [← hB, ← hS, ← ho, hfields]
  simp only [opcodeTable, List.map_cons, List.map_nil, List.mem_cons, List.not_mem_nil, or_false] at hop
  rcases hop with ho | ho | ho | ho | ho | ho | ho | ho | ho
  · exact ⟨.nop, rfl, plain _ ho (by decide)⟩
  · exact ⟨.init, rfl, plain _ ho (by decide)⟩
  · exact ⟨.absorb (cmdLA v).toNat, fits _, by simpa [encode] using withLA _ ho (by decide)⟩
  · exact ⟨.final, rfl, plain _ ho (by decide)⟩
  · exact ⟨.zeroize, rfl, plain _ ho (by decide)⟩
  · exact ⟨.keySet (cmdLA v).toNat, fits _, by simpa [encode] using withLA _ ho (by decide)⟩
  · exact ⟨.keyFromDigest, rfl, plain _ ho (by decide)⟩
  · exact ⟨.hmacStart, rfl, plain _ ho (by decide)⟩
  · refine ⟨.ctEq (cmdLA v).toNat (cmdLB v).toNat (operandBOfBsel (cmdBsel v)), by simp [Instr.wellFormed, fits], ?_⟩
    conv_rhs => rw [← hfields, ho]
    simp [encode]

/-- The decoder accepts exactly the legal words. -/
theorem decode_isOk_iff (v : Word32) : (∃ i, decode v = .ok i) ↔ LegalWord v := by
  constructor
  · rintro ⟨i, h⟩
    obtain ⟨-, -, -, rfl⟩ := decode_ok h
    exact legalWord_encode i
  · intro h
    obtain ⟨i, hwf, rfl⟩ := exists_encode_eq_of_legalWord h
    exact ⟨i, decode_encode hwf⟩

theorem decode_isError_iff (v : Word32) : (∃ e, decode v = .error e) ↔ ¬ LegalWord v := by
  rw [← decode_isOk_iff]
  cases decode v <;> simp

/-! ## The opcode table -/

@[simp] theorem cmdOp_and (v w : Word32) : cmdOp (v &&& w) = cmdOp v &&& cmdOp w := BitVec.extractLsb'_and

@[simp] theorem cmdLA_and (v w : Word32) : cmdLA (v &&& w) = cmdLA v &&& cmdLA w := BitVec.extractLsb'_and

@[simp] theorem cmdLB_and (v w : Word32) : cmdLB (v &&& w) = cmdLB v &&& cmdLB w := BitVec.extractLsb'_and

@[simp] theorem cmdBsel_and (v w : Word32) : cmdBsel (v &&& w) = cmdBsel v &&& cmdBsel w := BitVec.extractLsb'_and

@[simp] theorem cmdRsv_and (v w : Word32) : cmdRsv (v &&& w) = cmdRsv v &&& cmdRsv w := by
  simp only [cmdRsv, BitVec.extractLsb'_and]
  exact BitVec.and_append.symm

/-- A word without reserved bits is determined by its fields. -/
theorem eq_assemble_iff (v : Word32) (op : BitVec 8) (la lb : BitVec 7) (bsel : BitVec 1) :
    v = assemble op la lb bsel ↔
      cmdRsv v = 0 ∧ cmdOp v = op ∧ cmdLA v = la ∧ cmdLB v = lb ∧ cmdBsel v = bsel := by
  constructor
  · rintro rfl
    simp
  · rintro ⟨hrsv, rfl, rfl, rfl, rfl⟩
    exact (assemble_fields v hrsv).symm

/-- R63: how a row's match and mask are made.  The match is the opcode alone; the mask covers the opcode, the reserved bits, and
the fields the opcode marks "0". -/
theorem opcodeTable_row {row : OpcodeRow} (h : row ∈ opcodeTable) :
    row.matchBits = assemble row.opcode 0 0 0 ∧
      cmdRsv row.maskBits = .allOnes 9 ∧ cmdOp row.maskBits = .allOnes 8 ∧
      cmdLA row.maskBits = (if row.opcode ∈ ([0x02, 0x10, 0x20] : List (BitVec 8)) then 0 else .allOnes 7) ∧
      cmdLB row.maskBits = (if row.opcode = 0x20 then 0 else .allOnes 7) ∧
      cmdBsel row.maskBits = (if row.opcode = 0x20 then 0 else .allOnes 1) := by
  revert row
  decide

/-- A field masked only where its opcode marks it "0". -/
theorem and_mask_eq_zero_iff {w : Nat} (x : BitVec w) (used : Prop) [Decidable used] :
    (x &&& if used then 0 else .allOnes w) = 0 ↔ (¬ used → x = 0) := by
  split
  · next h => simp [h]
  · next h => simp [h]

/-- R63: a row accepts the legal words of its opcode. -/
theorem accepts_iff {row : OpcodeRow} (h : row ∈ opcodeTable) (v : Word32) :
    row.accepts v = true ↔ LegalWord v ∧ cmdOp v = row.opcode := by
  obtain ⟨hmatch, hrsv, hop, hla, hlb, hbsel⟩ := opcodeTable_row h
  have hmem : row.opcode ∈ opcodeTable.map (·.opcode) := List.mem_map_of_mem h
  rw [OpcodeRow.accepts, beq_iff_eq, hmatch, eq_assemble_iff]
  simp only [cmdRsv_and, cmdOp_and, cmdLA_and, cmdLB_and, cmdBsel_and, hrsv, hop, hla, hlb, hbsel, and_mask_eq_zero_iff,
    BitVec.and_allOnes, LegalWord]
  constructor
  · rintro ⟨hr, ho, hA, hB, hS⟩
    rw [ho]
    exact ⟨⟨hmem, hr, hA, fun hne => ⟨hB hne, hS hne⟩⟩, rfl⟩
  · rintro ⟨⟨-, hr, hA, hBS⟩, ho⟩
    rw [ho] at hA hBS
    exact ⟨hr, ho, hA, fun hne => (hBS hne).1, fun hne => (hBS hne).2⟩

end Sys2Proof

section
open Sys2Proof

/-- Settles O1: each command's branch of the decoder reads back the fields of the command's word (`decode_encode`). -/
theorem decodeEncodeRoundTrip : Obligations.DecodeEncodeRoundTrip := fun _ => decode_encode

/-- Settles O2: what the decoder accepts is the command's own word (`decode_ok`). -/
theorem encodeDecodeRoundTrip : Obligations.EncodeDecodeRoundTrip := by
  intro v i h
  obtain ⟨-, -, hwf, henc⟩ := decode_ok h
  exact ⟨hwf, henc⟩

/-- Settles O3: the decoder refuses exactly the words that are not legal (`decode_isError_iff`), and R64's list is the negation of
`LegalWord`, condition by condition. -/
theorem illegalWordsAreTheOnesR64Names : Obligations.IllegalWordsAreTheOnesR64Names := by
  intro v
  rw [decode_isError_iff]
  simp only [LegalWord, not_and_or, Classical.not_imp]
  rfl

/-- Settles O4: a row accepts the legal words of its opcode (`accepts_iff`), and the decoder accepts the legal words
(`decode_isOk_iff`) as commands of their opcode (`decode_ok`). -/
theorem wordsDecodeToTheirTableRow : Obligations.WordsDecodeToTheirTableRow := by
  constructor
  · intro v i h
    obtain ⟨-, hop, -, -⟩ := decode_ok h
    obtain ⟨row, hrow, hopcode⟩ := List.mem_map.1 i.opcode_mem
    exact ⟨row, hrow, (accepts_iff hrow v).2 ⟨(decode_isOk_iff v).1 ⟨i, h⟩, hop.trans hopcode.symm⟩, hopcode⟩
  · intro v row hrow haccepts
    obtain ⟨hlegal, hopcode⟩ := (accepts_iff hrow v).1 haccepts
    obtain ⟨i, h⟩ := (decode_isOk_iff v).2 hlegal
    obtain ⟨-, hop, -, -⟩ := decode_ok h
    exact ⟨i, h, hop.symm.trans hopcode⟩

end

/-! PROOFS. The engine's turn: enabled by BUSY, it is `exec` of the decoded word or the report of an illegal one
(30_encoding.md R64, R65; 60_exceptions.md R111, R112). -/

namespace Sys2Proof.Machine

/-- R24, R111: ILLEGAL_CMD is code 5, so its sticky bit is ERR[4]. -/
theorem errBit_illegalCmd : ErrCode.illegalCmd.errBit = 0b0010000 := by decide

theorem illegalCommand_of_ctEq {v : Word32} (h : cmdOp v = 0x20) (s : State) :
    illegalCommand v s = raiseCompareError .illegalCmd s := if_pos h

theorem illegalCommand_of_ne {v : Word32} (h : cmdOp v ≠ 0x20) (s : State) :
    illegalCommand v s = raiseError .illegalCmd s := if_neg h

/-- R65: with BUSY = 1 and a latched word that decodes, the engine's turn is the command. -/
theorem engineStep_of_decode {s : State} {i : Instr} (hbusy : s.busy = true) (h : decode s.cmdLatch = .ok i) :
    engineStep s = exec i s := by
  rw [engineStep_of_busy hbusy, performWord_of_ok h]

end Sys2Proof.Machine

section
open Sys2Proof Sys2Proof.Machine

/-- Settles O6: both turns are the engine's (`step_of_none`, `step_of_engine`), and taking a turn changes neither BUSY nor
CMDLATCH. -/
theorem stepRunsTheDecodedCommand : Obligations.StepRunsTheDecodedCommand := by
  intro s i hbusy h
  constructor
  · intro hturns
    rw [step_of_none hturns, engineStep_of_decode hbusy h]
  · intro rest hturns
    rw [step_of_engine hturns]
    exact engineStep_of_decode (s := s.afterTurn rest) hbusy h

/-- Settles O7: both turns are the engine's, which passes with BUSY = 0 (`engineStep_of_idle`). -/
theorem engineTurnWithoutCommandChangesNothing : Obligations.EngineTurnWithoutCommandChangesNothing := by
  intro s hbusy
  constructor
  · intro hturns
    rw [step_of_none hturns, engineStep_of_idle hbusy]
  · intro rest hturns
    rw [step_of_engine hturns]
    exact engineStep_of_idle (s := s.afterTurn rest) hbusy

/-- Settles O8: a refused word raises ILLEGAL_CMD (`performWord_of_error`), as a CT_EQ's error exactly when its OP is CT_EQ's. -/
theorem illegalWordOnlyReportsIllegalCmd : Obligations.IllegalWordOnlyReportsIllegalCmd := by
  intro s v e h
  rw [performWord_of_error h, ← errBit_illegalCmd]
  constructor
  · intro hop
    rw [illegalCommand_of_ne hop]
    rfl
  · intro hop
    rw [illegalCommand_of_ctEq hop]
    rfl

end

/-! PROOFS. The compression function: the bytes of the message words, what one step does, and the steps `compress` is made of
(40_compression.md R68..R78). -/

namespace Sys2Proof.Machine

/-! ## Message words (R69) -/

@[simp] theorem messageWords_getElem (blk : Block) (k : Nat) (h : k < 8) : (messageWords blk)[k] = leWord blk ⟨k, h⟩ := by
  simp [messageWords]

/-- Byte `t` of the little-endian word `k` of a block is byte `8k + t` of the block (R10). -/
theorem leWord_extractLsb' (blk : Block) (k t : Fin 8) :
    (leWord blk k).extractLsb' (8 * t.val) 8 = blk[8 * k.val + t.val] := by
  apply BitVec.eq_of_getLsbD_eq
  intro n hn
  have hbyte : (8 * t.val + n) / 8 = t.val := by omega
  have hbit : (8 * t.val + n) % 8 = n := by omega
  rw [BitVec.getLsbD_extractLsb', leWord_getLsbD blk k _ (by omega)]
  simp only [hn, hbyte, hbit, decide_true, Bool.true_and]

theorem messageWords_zeroBlock : messageWords zeroBlock = Vector.replicate 8 0 := by
  decide

/-! ## One step (R70..R72) -/

/-- The model's rotation, from shifts (R9), is the library's for the amounts below the width. -/
theorem rotl64_eq_rotateLeft (x : Word) {n : Nat} (h : n < 64) : rotl64 x n = x.rotateLeft n := by
  rw [BitVec.rotateLeft_def, Nat.mod_eq_of_lt h, rotl64]

/-- `s[i] + w[2j] + w[2j+1]` with `j = (i + r) mod 4`: what step `i` of round `r` rotates (R70). -/
def mixSum (w : Vector Word 8) (r : Nat) (s : Words) (i : Fin 4) : Word :=
  s[i] + w[2 * (mixIndex r i).val] + w[2 * (mixIndex r i).val + 1]

/-- The step mixes a word with itself in every fourth round. -/
theorem mixIndex_eq_iff (r : Nat) (i : Fin 4) : mixIndex r i = i ↔ r % 4 = 0 := by
  simp only [Fin.ext_iff, mixIndex]
  omega

/-- R70, R71: step `i` writes `s[i]` only, and its XOR operand is the new `s[i]` when `j = i`. -/
theorem mixStep_eq (k : Word) (w : Vector Word 8) (r : Nat) (s : Words) (i : Fin 4) :
    mixStep k w r s i = s.set i
      (((mixSum w r s i).rotateLeft 13 ^^^ if mixIndex r i = i then mixSum w r s i else s[mixIndex r i]) * k) := by
  have hoperand : (s.set i (mixSum w r s i))[mixIndex r i] =
      if mixIndex r i = i then mixSum w r s i else s[mixIndex r i] := by
    simp [Vector.getElem_set, Fin.ext_iff, eq_comm]
  rw [← hoperand, ← rotl64_eq_rotateLeft _ (by decide)]
  simp [mixStep, mixSum, rotation]

/-- In round 0 a step with the zero block clears a word that the rotation fixes: the XOR is of the word with itself. -/
theorem mixStep_of_rotateLeft_eq {s : Words} {i : Fin 4} (k : Word) (h : s[i].rotateLeft 13 = s[i]) :
    mixStep k (Vector.replicate 8 0) 0 s i = s.set i 0 := by
  have hsum : mixSum (Vector.replicate 8 0) 0 s i = s[i] := by simp [mixSum]
  rw [mixStep_eq, hsum, if_pos ((mixIndex_eq_iff 0 i).2 rfl), h, BitVec.xor_self, BitVec.zero_mul]
  rfl

/-- R77: a word 0 that the rotation fixes leaves no trace in the state after the first step with the zero block. -/
theorem mixStep_clears_word_zero {x : Word} (k w₁ w₂ w₃ : Word) (h : x.rotateLeft 13 = x) :
    mixStep k (Vector.replicate 8 0) 0 #v[x, w₁, w₂, w₃] 0 = #v[0, w₁, w₂, w₃] :=
  mixStep_of_rotateLeft_eq (s := #v[x, w₁, w₂, w₃]) (i := 0) k h

/-- Zero message words and a zero state: every step writes zero again, whatever `K` is. -/
theorem mixStep_zero (k : Word) (r : Nat) (i : Fin 4) :
    mixStep k (Vector.replicate 8 0) r (Vector.replicate 4 0) i = Vector.replicate 4 0 := by
  have hsum : mixSum (Vector.replicate 8 0) r (Vector.replicate 4 0) i = 0 := by simp [mixSum]
  rw [mixStep_eq, hsum]
  simp

/-! ## All steps (R68, R73, R74) -/

/-- A round is its four steps in order (R70). -/
theorem mixRound_eq (k : Word) (w : Vector Word 8) (s : Words) (r : Nat) :
    mixRound k w s r = mixStep k w r (mixStep k w r (mixStep k w r (mixStep k w r s 0) 1) 2) 3 := rfl

theorem compress_eq_foldl_rounds (k : Word) (s : Words) (blk : Block) :
    compress k s blk = [0, 1, 2, 3, 4, 5, 6, 7].foldl (mixRound k (messageWords blk)) s := rfl

/-- What the first step of round 0 leaves determines the result. -/
theorem compress_eq_of_first_step {k : Word} {s s' : Words} {blk : Block}
    (h : mixStep k (messageWords blk) 0 s 0 = mixStep k (messageWords blk) 0 s' 0) :
    compress k s blk = compress k s' blk := by
  have hround : mixRound k (messageWords blk) s 0 = mixRound k (messageWords blk) s' 0 := by
    rw [mixRound_eq, mixRound_eq, h]
  simp only [compress_eq_foldl_rounds, List.foldl_cons, hround]

end Sys2Proof.Machine

section
open Sys2Proof Sys2Proof.Machine

/-- Settles O38: a message word is the little-endian word of its eight bytes (`leWord_extractLsb'`). -/
theorem messageWordsAreLittleEndian : Obligations.MessageWordsAreLittleEndian := by
  intro blk k t
  simpa using leWord_extractLsb' blk k t

/-- Settles O39: one step is `mixStep_eq`, and the rounds and their steps are two finite folds (`compress_eq_foldl_rounds`,
`mixRound_eq`). -/
theorem compressIsEightRoundsOfInPlaceSteps : Obligations.CompressIsEightRoundsOfInPlaceSteps := by
  constructor
  · intro k w r s i j hj
    obtain rfl : j = mixIndex r i := Fin.ext hj
    exact ⟨mixIndex_eq_iff r i, mixStep_eq k w r s i⟩
  · exact compress_eq_foldl_rounds

/-- Settles O40: the zero state is a fixed point of every step with the zero block (`mixStep_zero`). -/
theorem compressOfZerosIsZero : Obligations.CompressOfZerosIsZero := by
  intro k
  have hround (r : Nat) : mixRound k (Vector.replicate 8 0) (Vector.replicate 4 0) r = Vector.replicate 4 0 :=
    List.foldl_fixed' (mixStep_zero k r) _
  rw [compress, messageWords_zeroBlock]
  exact List.foldl_fixed' hround _

/-- Settles O41: all zeros and all ones are both fixed by the rotation, so the first step clears word 0 of either state
(`mixStep_clears_word_zero`). -/
theorem compressIsNotInjective : Obligations.CompressIsNotInjective := by
  intro k w₁ w₂ w₃
  have hzeros : (0 : Word).rotateLeft 13 = 0 := by decide
  have hones : (0xFFFFFFFFFFFFFFFF : Word).rotateLeft 13 = 0xFFFFFFFFFFFFFFFF := by decide
  apply compress_eq_of_first_step
  rw [messageWords_zeroBlock,
    mixStep_clears_word_zero k w₁ w₂ w₃ hzeros, mixStep_clears_word_zero k w₁ w₂ w₃ hones]

end

/-! PROOFS. The padding, and `update` over a list of chunks (41_stream.md R79..R81, R90). -/

namespace Sys2Proof.Machine

/-! ## The padding (R80) -/

/-- R80: the bytes after 0x80 and before the length field are zero. -/
theorem pad_getD_of_zeros {u : LenUnit} {l : Word} {p n : Nat} (d : Byte) (hn : 1 ≤ n)
    (h : n + 8 < (pad u l p).length) : (pad u l p).getD n d = 0 := by
  obtain ⟨k, rfl⟩ : ∃ k, n = k + 1 := ⟨n - 1, by omega⟩
  rw [pad_length] at h
  have hk : k < (119 - p) % 64 := by omega
  rw [pad, List.getD_cons_succ, List.getD_append _ _ _ _ (by simpa using hk), List.getD_replicate _ hk]

/-- R80: the last eight bytes are the length field, most significant first. -/
theorem pad_getD_lengthField (u : LenUnit) (l : Word) (p : Nat) {t : Nat} (h : t < 8) :
    (pad u l p).getD ((pad u l p).length - 8 + t) 0 = (lengthField u l).extractLsb' (56 - 8 * t) 8 := by
  have hpos : (pad u l p).length - 8 + t = (119 - p) % 64 + t + 1 := by rw [pad_length]; omega
  rw [hpos, pad, List.getD_cons_succ, List.getD_append_right _ _ _ _ (by simp), List.length_replicate,
    Nat.add_sub_cancel_left, be64Bytes_getD _ _ h]

/-! ## `update` over chunks (R90) -/

/-- R90: after a first chunk, updating with the others one by one is one update with them all. -/
theorem foldl_update (s : State) (c : List Byte) (chunks : List (List Byte)) :
    chunks.foldl (fun t c => update c t) (update c s) = update (c ++ chunks.flatten) s := by
  induction chunks generalizing c with
  | nil => simp
  | cons d ds ih => rw [List.foldl_cons, update_update, ih, List.flatten_cons, List.append_assoc]

end Sys2Proof.Machine

section
open Sys2Proof Sys2Proof.Machine

/-- Settles O42: the length is `pad_length`, the zeros and the length field are `pad_getD_of_zeros` and
`pad_getD_lengthField`, and the two units differ in the length field alone. -/
theorem paddingShapeAndLength : Obligations.PaddingShapeAndLength := by
  intro l p hp
  refine ⟨?length, ?blocks, rfl, fun n => pad_getD_of_zeros 1, fun t => pad_getD_lengthField .bytes l p, rfl⟩
  case length => rw [pad_length]; omega
  case blocks => rw [pad_length]; split <;> omega

/-- Settles O43: the first chunk is an update, and the others extend it (`foldl_update`). -/
theorem updateDependsOnlyOnTheConcatenation : Obligations.UpdateDependsOnlyOnTheConcatenation := by
  intro s chunks hne
  cases chunks with
  | nil => exact absurd rfl hne
  | cons c cs => exact foldl_update s c cs

end

/-! PROOFS. INIT, ABSORB and FINAL: the whole state each leaves, their errors, and the transitions of ESTATE
(41_stream.md R85..R89, R91; 60_exceptions.md R112, R113). -/

namespace Sys2Proof.Machine

/-! ## A hash under way -/

/-- FRESH and ABSORBING are the states in which a hash is under way. -/
theorem estate_open_iff (e : EState) : (e = .fresh ∨ e = .absorbing) ↔ e ≠ .idle ∧ e ≠ .finalized := by
  cases e <;> simp

theorem EState.absorbed_of_open {e : EState} (h : e = .fresh ∨ e = .absorbing) : e.absorbed = .absorbing := by
  rcases h with rfl | rfl <;> rfl

/-! ## ABSORB (R79, R86) -/

/-- R86: an ABSORB that passes its checks is the update with its bytes. -/
theorem exec_absorb_of_pass {la : Nat} {s : State} (hla : la ≤ 64) (he : s.estate ≠ .idle) :
    exec (.absorb la) s = .next (complete (update (dinBytes la s) s)) :=
  exec_of_none (absorbChecks_pass.2 ⟨hla, he⟩)

/-- R113: the length is checked first. -/
theorem exec_absorb_of_gt {la : Nat} (s : State) (h : 64 < la) :
    exec (.absorb la) s = .next (raiseError .invalidLength s) :=
  exec_of_some (i := .absorb la) (by simp [checksOf, absorbChecks, absorbMax, h])

theorem exec_absorb_of_idle {la : Nat} {s : State} (hla : la ≤ 64) (he : s.estate = .idle) :
    exec (.absorb la) s = .next (raiseError .notInitialized s) :=
  exec_of_some (i := .absorb la) (by simp [checksOf, absorbChecks, absorbMax, he, Nat.not_lt.2 hla])

theorem dinBytes_length {la : Nat} (s : State) (h : la ≤ 64) : (dinBytes la s).length = la := by
  simpa [dinBytes] using h

theorem dinBytes_getD {la k : Nat} (s : State) (h : k < la) : (dinBytes la s).getD k 0 = s.din.toList.getD k 0 := by
  simp [dinBytes, List.getD_eq_getElem?_getD, List.getElem?_take_of_lt h]

theorem dinBytes_take {n la : Nat} (s : State) (h : n ≤ la) : (dinBytes la s).take n = dinBytes n s := by
  simp [dinBytes, List.take_take, Nat.min_eq_left h]

/-- R79, R86: the whole state that ABSORB leaves with a hash under way, in terms of the fed bytes. -/
theorem exec_absorb_eq_feed {la : Nat} {s : State} (hla : la ≤ 64) (he : s.estate = .fresh ∨ s.estate = .absorbing) :
    exec (.absorb la) s = .next { s with
      words := (feed s.params.k s.absorber (dinBytes la s)).words
      pend := (feed s.params.k s.absorber (dinBytes la s)).pend
      plen := (feed s.params.k s.absorber (dinBytes la s)).plen
      len := s.len + BitVec.ofNat 64 la
      estate := .absorbing, lastErr := 0, busy := false } := by
  obtain ⟨hni, hnf⟩ := (estate_open_iff _).1 he
  rw [exec_absorb_of_pass hla hni, update_of_ne _ hnf, EState.absorbed_of_open he, dinBytes_length s hla]
  rfl

/-- R79: bytes that fill the buffer once: one compression of the pending bytes and the first new ones, and the others are
stored in the cleared buffer. -/
theorem feed_fill_once (k : Word) (e : Absorber) (data : List Byte) (hfull : 64 ≤ e.plen.val + data.length)
    (h : e.plen.val + data.length - 64 < 64) :
    feed k e data =
      ⟨compress k e.words (blockOf (e.pend.toList.take e.plen.val ++ data.take (64 - e.plen.val))),
        Vector.ofFn fun i => if i.val < e.plen.val + data.length - 64 then data.getD (64 - e.plen.val + i.val) 0 else 0,
        ⟨e.plen.val + data.length - 64, h⟩⟩ := by
  have hplen := e.plen.isLt
  have hfirst : (data.take (64 - e.plen.val)).length = 64 - e.plen.val := by rw [List.length_take]; omega
  have hrest : (data.drop (64 - e.plen.val)).length = e.plen.val + data.length - 64 := by rw [List.length_drop]; omega
  conv_lhs => rw [← List.take_append_drop (64 - e.plen.val) data]
  rw [feed_append, feed_fill k e _ (by omega), feed_short k _ _ (by simpa [hrest] using h)]
  simp [hrest, List.getD_eq_getElem?_getD]

/-- R79: the full buffer holds the pending bytes and then the first bytes of DIN. -/
theorem blockOf_pend_append_dinBytes (s : State) :
    blockOf (s.pend.toList.take s.plen.val ++ dinBytes (64 - s.plen.val) s) =
      Vector.ofFn fun k => if k.val < s.plen.val then s.pend[k] else s.din.toList.getD (k.val - s.plen.val) 0 := by
  have hlen : (s.pend.toList.take s.plen.val).length = s.plen.val := by simp
  apply Vector.ext
  intro k hk
  rw [blockOf_getElem, Vector.getElem_ofFn]
  by_cases hlt : k < s.plen.val
  · rw [if_pos hlt, List.getD_append _ _ _ _ (by omega)]
    simp [List.getD_eq_getElem?_getD, hlt]
  · rw [if_neg hlt, List.getD_append_right _ _ _ _ (by omega), hlen]
    exact dinBytes_getD s (by omega)

/-! ## FINAL (R82, R87) -/

theorem exec_final_of_idle {s : State} (he : s.estate = .idle) :
    exec .final s = .next (raiseError .notInitialized s) :=
  exec_of_some (i := .final) (by simp [checksOf, finalChecks, he])

theorem exec_final_of_finalized {s : State} (he : s.estate = .finalized) :
    exec .final s = .next (raiseError .alreadyFinalized s) :=
  exec_of_some (i := .final) (by simp [checksOf, finalChecks, he])

/-- R87: with a hash under way, FINAL is the finish of its MODE. -/
theorem exec_final_of_open {s : State} (he : s.estate = .fresh ∨ s.estate = .absorbing) :
    exec .final s = .next (complete (finalEffect s)) :=
  exec_of_none (finalChecks_pass.2 ((estate_open_iff _).1 he))

theorem exec_final_of_plain {s : State} (hm : s.mode = .plain) (he : s.estate = .fresh ∨ s.estate = .absorbing) :
    exec .final s = .next (complete (finalize s)) := by
  rw [exec_final_of_open he, finalEffect, hm]

theorem finalEffect_estate (s : State) : (finalEffect s).estate = .finalized := by
  unfold finalEffect
  split <;> rfl

/-! ## INIT, and the empty message (R85, R89) -/

theorem exec_init (s : State) : exec .init s = .next (complete (initEffect s)) := rfl

/-- R89: the padding of the empty message, in either LEN_UNIT, is 0x80 and 63 zeros. -/
theorem pad_empty (u : LenUnit) : pad u 0 0 = 0x80 :: List.replicate 63 0 := by cases u <;> rfl

theorem blockOf_pad_empty (u : LenUnit) :
    blockOf (pad u 0 0) = Vector.ofFn fun k : Fin 64 => if k.val = 0 then 0x80 else 0 := by
  apply Vector.ext
  intro k hk
  rw [blockOf_getElem, pad_empty, Vector.getElem_ofFn]
  cases k with
  | zero => rfl
  | succ k => exact List.getD_replicate _ (by omega)

/-! ## The transitions of ESTATE (R88) -/

/-- R112: a command that raises an error leaves ESTATE. -/
theorem raiseOf_estate (i : Instr) (c : ErrCode) (s : State) : (raiseOf i c s).estate = s.estate := by
  unfold raiseOf
  split <;> rfl

theorem lastErr_of_raiseError {i : Instr} {c : ErrCode} {s t : State} (he : exec i s = .next (raiseError c s))
    (h : exec i s = .next t) : t.lastErr = c.code := by
  rw [he] at h
  cases h
  rfl

theorem update_estate (data : List Byte) {s : State} (h : s.estate ≠ .idle) :
    (update data s).estate = if s.estate = .finalized then .finalized else .absorbing := by
  by_cases hf : s.estate = .finalized
  · rw [update_of_finalized data hf, if_pos hf, hf]
  · rw [update_of_ne data hf, if_neg hf]
    exact EState.absorbed_of_open ((estate_open_iff _).2 ⟨h, hf⟩)

end Sys2Proof.Machine

section
open Sys2Proof Sys2Proof.Machine

/-- Settles O13: the table's row of each command is its effect under its checks, an error keeps ESTATE (`raiseOf_estate`), and
the two errors named are the ones that IDLE and FINALIZED raise. -/
theorem estateFollowsTheTransitionTable : Obligations.EstateFollowsTheTransitionTable := by
  intro i s t h
  refine ⟨fun herr => ?_, fun hok => ?_, fun hidle hi => ?_, fun hfin hi => ?_⟩
  · rcases exec_by_lastErr h with ⟨h0, -, -⟩ | ⟨c, -, -, rfl⟩
    · exact absurd h0 herr
    · exact raiseOf_estate i c s
  · rcases exec_by_lastErr h with ⟨-, hc, rfl⟩ | ⟨c, hcode, -, -⟩
    · cases i with
      | init => exact initEffect_estate s
      | absorb la =>
        obtain ⟨-, hni⟩ := absorbChecks_pass.1 hc
        exact ⟨hni, update_estate _ hni⟩
      | final =>
        obtain ⟨hni, hnf⟩ := finalChecks_pass.1 hc
        exact ⟨hni, hnf, finalEffect_estate s⟩
      | hmacStart => simp [effectOf, hmacStartEffect_eq]
      | zeroize => exact zeroizeEffect_estate s
      | keySet la | keyFromDigest | ctEq la lb b => simp [effectOf]
      | nop => rfl
    · exact absurd (hcode.symm.trans hok) c.code_ne_zero
  · rcases hi with rfl | ⟨la, hla, rfl⟩
    · exact lastErr_of_raiseError (exec_final_of_idle hidle) h
    · exact lastErr_of_raiseError (exec_absorb_of_idle hla hidle) h
  · subst hi
    exact lastErr_of_raiseError (exec_final_of_finalized hfin) h

/-- Settles O22: the update stores bytes that do not fill the buffer from `PEND[PLEN]` on (`feed_short`), and they are the first
bytes of DIN (`dinBytes_getD`). -/
theorem absorbStoresBytesThatDoNotFillTheBuffer : Obligations.AbsorbStoresBytesThatDoNotFillTheBuffer := by
  intro la s hla he h
  have hlen : (dinBytes la s).length = la := dinBytes_length s hla
  rw [exec_absorb_eq_feed hla he, feed_short _ s.absorber _ (by rw [hlen]; exact h)]
  simp only [hlen, State.absorber]
  congr 3
  funext k
  exact if_ctx_congr .rfl (fun hk => dinBytes_getD s (by omega)) fun _ => rfl

/-- Settles O23: the update compresses the one block that the pending bytes and the first bytes of DIN make
(`feed_fill_once`, `blockOf_pend_append_dinBytes`), and stores the other bytes in the cleared buffer. -/
theorem absorbCompressesOnceWhenTheBufferFills : Obligations.AbsorbCompressesOnceWhenTheBufferFills := by
  intro la s hla he hfull h
  have hlen : (dinBytes la s).length = la := dinBytes_length s hla
  have hfirst : (dinBytes la s).take (64 - s.plen.val) = dinBytes (64 - s.plen.val) s := dinBytes_take s (by omega)
  rw [exec_absorb_eq_feed hla he, feed_fill_once _ s.absorber _ (by rwa [hlen]) (by rwa [hlen])]
  simp only [hlen, hfirst, State.absorber, blockOf_pend_append_dinBytes]
  congr 3
  funext k
  exact if_ctx_congr .rfl (fun hk => dinBytes_getD s (by omega)) fun _ => rfl

/-- Settles O24: in FINALIZED the update does nothing (`update_of_finalized`); the errors are the checks in R113's order. -/
theorem absorbNoOpAndErrors : Obligations.AbsorbNoOpAndErrors := by
  refine fun la s => ⟨fun hla he => ?_, fun hla => exec_absorb_of_gt s hla, fun hla he => exec_absorb_of_idle hla he⟩
  rw [exec_absorb_of_pass hla (by simp [he]), update_of_finalized _ he]
  rfl

/-- Settles O25: FINAL in PLAIN is `finalize` (`exec_final_of_plain`), whose update ends on a block boundary
(`finalize_of_ne`). -/
theorem finalFinishesAPlainHash : Obligations.FinalFinishesAPlainHash := by
  intro s hm he
  rw [exec_final_of_plain hm he, finalize_of_ne ((estate_open_iff _).1 he).2]
  rfl

/-- Settles O27: FINAL in FINALIZED is its second check's error, which the digest registers do not read. -/
theorem secondFinalKeepsTheDigest : Obligations.SecondFinalKeepsTheDigest :=
  fun _ he => ⟨exec_final_of_finalized he, fun _ => rfl⟩

/-- Settles O28: IDLE is FINAL's first check. -/
theorem finalInIdleIsNotInitialized : Obligations.FinalInIdleIsNotInitialized :=
  fun _ => exec_final_of_idle

/-- Settles O19: INIT has no checks, and its effect is R85's. -/
theorem initStartsAPlainHash : Obligations.InitStartsAPlainHash := exec_init

/-- Settles O5: each word is the command's own word, which decodes to it (`decode_encode`); the last one has a reserved bit. -/
theorem wordsTheSpecWritesOutDecode : Obligations.WordsTheSpecWritesOutDecode :=
  ⟨decode_encode (i := .init) rfl, decode_encode (i := .absorb 3) rfl, decode_encode (i := .final) rfl,
    decode_encode (i := .keySet 3) rfl, decode_encode (i := .hmacStart) rfl, decode_encode (i := .ctEq 3 2 .cmpb) rfl,
    decode_encode (i := .ctEq 16 32 .digest) rfl, decode_encode (i := .zeroize) rfl, rfl⟩

/-- Settles O47: after INIT the buffer is empty, so FINAL compresses the padding alone, which is one block
(`blockOf_pad_empty`). -/
theorem emptyMessageIsOneCompression : Obligations.EmptyMessageIsOneCompression := by
  intro s
  refine ⟨_, _, exec_init s, exec_final_of_plain (by simp) (by simp), ?_⟩
  rw [finalize_of_ne (by simp), ← blockOf_pad_empty s.params.lenUnit]
  simp [compressAll_single]

end

/-! PROOFS. Every run of INIT, ABSORBs of a message and FINAL ends with `H` of the message (41_stream.md R84, R90). -/

namespace Sys2Proof.Machine

/-- R90: what the host finds in the engine after a run of ABSORBs and other activity that leaves the engine alone: the message
absorbed in one piece, and a hash still under way. -/
theorem engine_after_absorbRun {s t u : State} {m : List Byte} (hrun : AbsorbRun s m t)
    (he : s.estate = .fresh ∨ s.estate = .absorbing) (hsame : SameEngine t u) :
    u.absorber = feed s.params.k s.absorber m ∧ u.len = s.len + BitVec.ofNat 64 m.length ∧
      u.mode = s.mode ∧ u.key = s.key ∧ u.params = s.params ∧ (u.estate = .fresh ∨ u.estate = .absorbing) := by
  obtain ⟨⟨hwords, hpend, hplen, hlen, -, -, hmode, hkey, hparams⟩, hopen⟩ := absorbRun_engine hrun he
  obtain ⟨hwords', hpend', hplen', hlen', -, hestate', hmode', hkey', hparams'⟩ := hsame
  refine ⟨?_, hlen' ▸ hlen, hmode' ▸ hmode, hkey' ▸ hkey, hparams' ▸ hparams, hestate' ▸ hopen⟩
  rw [State.absorber, ← hwords', ← hpend', ← hplen', hwords, hpend, hplen]
  rfl

theorem hashRun_exists (s : State) (m : List Byte) : ∃ t, HashRun s m t := by
  obtain ⟨s₂, hrun⟩ := absorbRun_exists m (s := complete (initEffect s)) (by simp)
  obtain ⟨t, hfinal⟩ := exec_is_next .final s₂
  exact ⟨t, _, s₂, s₂, exec_init s, hrun, ⟨rfl, rfl, rfl, rfl, rfl, rfl, rfl, rfl, rfl⟩, hfinal⟩

/-- R84, R90: when FINAL is given, the engine has absorbed the whole message from `IV` and an empty buffer. -/
theorem hashRun_before_final {s t : State} {m : List Byte} (h : HashRun s m t) :
    ∃ u : State, t = complete (finalize u) ∧ u.absorber = feed s.params.k ⟨s.params.iv, zeroBlock, 0⟩ m ∧
      u.len = BitVec.ofNat 64 m.length ∧ u.mode = .plain ∧ u.params = s.params ∧ u.estate ≠ .finalized := by
  obtain ⟨s₁, s₂, u, hinit, hrun, hsame, hfinal⟩ := h
  cases hinit
  obtain ⟨habs, hlen, hmode, -, hparams, hopen⟩ := engine_after_absorbRun hrun (.inl rfl) hsame
  rw [exec_final_of_plain hmode hopen] at hfinal
  cases hfinal
  exact ⟨u, rfl, habs, hlen.trans (BitVec.zero_add _), hmode, hparams, ((estate_open_iff _).1 hopen).2⟩

end Sys2Proof.Machine

section
open Sys2Proof Sys2Proof.Machine

/-- Settles O44: a run exists (`hashRun_exists`), and in every run FINAL finds the message absorbed in one piece
(`hashRun_before_final`), so it compresses the blocks that `H` does (`compressAll_of_absorbed`). -/
theorem everySplitHashesToTheDigestFunction : Obligations.EverySplitHashesToTheDigestFunction := by
  refine fun s m => ⟨hashRun_exists s m, fun t h => ?_⟩
  obtain ⟨u, rfl, habs, hlen, hmode, hparams, hnf⟩ := hashRun_before_final h
  have hplen : u.plen.val = m.length % 64 := by
    have hfed := congrArg (fun e : Absorber => e.plen.val) habs
    simpa [feed_plen, State.absorber] using hfed
  have hwords : (complete (finalize u)).words = hashWords s.params m := by
    rw [finalize_of_ne hnf]
    exact compressAll_of_absorbed hparams habs hlen
  refine ⟨hwords, congrArg digestBytes hwords, rfl, ?_⟩
  rw [finalize_of_ne hnf]
  refine ⟨hmode, rfl, hlen, ?_⟩
  simp [hlen, hplen, BitVec.ofNat_add, BitVec.add_assoc]

end

/-! PROOFS. The HMAC commands: the whole state KEY_SET, KEY_FROM_DIGEST, HMAC_START and FINAL of an HMAC leave, and their errors
(42_hmac.md R94..R98; 60_exceptions.md R112, R113). -/

namespace Sys2Proof.Machine

/-! ## KEY_SET (R95) -/

theorem exec_keySet_of_pass {la : Nat} {s : State} (hla : la ≤ 64) (hempty : la = 0 → s.params.allowEmptyKey = true)
    (hfree : ¬ (s.mode = .hmac ∧ s.estate = .absorbing)) :
    exec (.keySet la) s = .next (complete (keySetEffect la s)) :=
  exec_of_none (keySetChecks_pass.2 ⟨hla, hempty, hfree⟩)

/-- R113: the length is checked first. -/
theorem exec_keySet_of_gt {la : Nat} (s : State) (h : 64 < la) :
    exec (.keySet la) s = .next (raiseError .invalidLength s) :=
  exec_of_some (i := .keySet la) (by simp [checksOf, keySetChecks, hmacKeyMax, h])

theorem exec_keySet_of_empty {s : State} (h : s.params.allowEmptyKey = false) :
    exec (.keySet 0) s = .next (raiseError .invalidConfig s) :=
  exec_of_some (i := .keySet 0) (by simp [checksOf, keySetChecks, hmacKeyMax, h])

theorem exec_keySet_of_running {la : Nat} {s : State} (hla : la ≤ 64) (hm : s.mode = .hmac) (he : s.estate = .absorbing) :
    exec (.keySet la) s = .next (raiseError .invalidConfig s) :=
  exec_of_some (i := .keySet la) (by simp [checksOf, keySetChecks, hmacKeyMax, hm, he, Nat.not_lt.2 hla])

/-- R95: the key block that KEY_SET makes, byte by byte. -/
theorem blockOf_dinBytes (la : Nat) (s : State) :
    blockOf (dinBytes la s) = Vector.ofFn fun k : Fin 64 => if k.val < la then s.din[k] else 0 := by
  apply Vector.ext
  intro k hk
  rw [blockOf_getElem, Vector.getElem_ofFn]
  by_cases hlt : k < la
  · rw [if_pos hlt, dinBytes_getD s hlt]
    simp [List.getD_eq_getElem?_getD, hk]
  · rw [if_neg hlt]
    exact List.getD_eq_default _ _ ((List.length_take_le _ _).trans (Nat.not_lt.1 hlt))

/-! ## KEY_FROM_DIGEST (R96) -/

theorem exec_keyFromDigest_of_pass {s : State} (he : s.estate = .finalized) (hm : s.mode = .plain)
    (hlong : 64 < s.mlen.toNat) : exec .keyFromDigest s = .next (complete (keyFromDigestEffect s)) :=
  exec_of_none (keyFromDigestChecks_pass.2 ⟨⟨he, hm⟩, hlong⟩)

/-- R96: the two checks raise the same error. -/
theorem exec_keyFromDigest_of_fail {s : State} (h : firstError (keyFromDigestChecks s) ≠ none) :
    exec .keyFromDigest s = .next (raiseError .invalidConfig s) := by
  obtain ⟨c, hc⟩ := Option.ne_none_iff_exists'.1 h
  have hmem : c ∈ (keyFromDigestChecks s).map Prod.snd := List.mem_map_of_mem (firstError_mem hc)
  obtain rfl : c = .invalidConfig := by simpa [keyFromDigestChecks] using hmem
  exact exec_of_some hc

/-- R83: the digest as a block, byte by byte. -/
theorem blockOf_digestBytes (w : Words) :
    blockOf (digestBytes w) = Vector.ofFn fun k : Fin 64 =>
      if h : k.val < 32 then (w[k.val / 8]'(by omega)).extractLsb' (8 * (k.val % 8)) 8 else 0 := by
  apply Vector.ext
  intro k hk
  rw [blockOf_getElem, Vector.getElem_ofFn]
  by_cases hlt : k < 32
  · have hpos : 8 * (k / 8) + k % 8 = k := Nat.div_add_mod k 8
    have hbyte := digestBytes_getD w ⟨k / 8, by omega⟩ (k % 8) (by omega)
    rw [hpos] at hbyte
    rw [dif_pos hlt, hbyte]
    rfl
  · rw [dif_neg hlt]
    exact List.getD_eq_default _ _ (by simpa using hlt)

/-! ## HMAC_START (R97) -/

theorem exec_hmacStart_of_key {s : State} (h : s.keyValid = true) :
    exec .hmacStart s = .next (complete (hmacStartEffect s)) :=
  exec_of_none (hmacStartChecks_pass.2 h)

theorem exec_hmacStart_of_no_key {s : State} (h : s.keyValid = false) :
    exec .hmacStart s = .next (raiseError .keyNotValid s) :=
  exec_of_some (i := .hmacStart) (by simp [checksOf, hmacStartChecks, h])

/-! ## FINAL of an HMAC (R98) -/

theorem exec_final_of_hmac {s : State} (hm : s.mode = .hmac) (he : s.estate = .fresh ∨ s.estate = .absorbing) :
    exec .final s = .next (complete (hmacFinish s)) := by
  rw [exec_final_of_open he, finalEffect, hm]

end Sys2Proof.Machine

section
open Sys2Proof Sys2Proof.Machine

/-- Settles O26: FINAL in HMAC is `hmacFinish` (`exec_final_of_hmac`), whose inner finish ends on a block boundary and whose outer
hash is `H`'s own loop (`hmacFinish_of_ne`). -/
theorem finalFinishesAnHmac : Obligations.FinalFinishesAnHmac := by
  intro s hm he
  rw [exec_final_of_hmac hm he, hmacFinish_of_ne ((estate_open_iff _).1 he).2]
  rfl

/-- Settles O29: KEY_SET passes its checks, and the block it loads is `blockOf_dinBytes`. -/
theorem keySetLoadsTheKeyBlock : Obligations.KeySetLoadsTheKeyBlock := by
  intro la s hla hne hfree
  have hempty : la = 0 → s.params.allowEmptyKey = true := fun h0 => hne.resolve_left (by omega)
  rw [exec_keySet_of_pass hla hempty hfree, keySetEffect, blockOf_dinBytes]
  rfl

/-- Settles O30: KEY_SET's checks in R113's order. -/
theorem keySetErrors : Obligations.KeySetErrors := by
  refine fun la s => ⟨fun hla => exec_keySet_of_gt s hla, fun hla h => ?_⟩
  rcases h with ⟨rfl, hempty⟩ | ⟨hm, he⟩
  · exact exec_keySet_of_empty hempty
  · exact exec_keySet_of_running hla hm he

/-- Settles O31: KEY_FROM_DIGEST passes its checks, and the block it loads is `blockOf_digestBytes`. -/
theorem keyFromDigestLoadsTheDigest : Obligations.KeyFromDigestLoadsTheDigest := by
  intro s he hm hlong
  rw [exec_keyFromDigest_of_pass he hm hlong, keyFromDigestEffect, blockOf_digestBytes]
  rfl

/-- Settles O32: in each of the three cases KEY_FROM_DIGEST does not pass its checks (`keyFromDigestChecks_pass`), which raise
INVALID_CONFIG only (`exec_keyFromDigest_of_fail`). -/
theorem keyFromDigestErrors : Obligations.KeyFromDigestErrors := by
  intro s h
  apply exec_keyFromDigest_of_fail
  rw [Ne, keyFromDigestChecks_pass]
  rintro ⟨⟨he, hm⟩, hlong⟩
  rcases h with hne | hmac | hshort
  · exact hne he
  · cases hm.symm.trans hmac
  · omega

/-- Settles O33: with a key HMAC_START passes its check, and its effect is one compression from IV (`hmacStartEffect_eq`). -/
theorem hmacStartAbsorbsTheInnerPad : Obligations.HmacStartAbsorbsTheInnerPad := by
  intro s hkey
  rw [exec_hmacStart_of_key hkey, hmacStartEffect_eq]
  rfl

/-- Settles O34: a loaded key is HMAC_START's only check. -/
theorem hmacStartWithoutKeyIsKeyNotValid : Obligations.HmacStartWithoutKeyIsKeyNotValid :=
  fun _ => exec_hmacStart_of_no_key

end

/-! PROOFS. HMAC as a function: the key block that gets loaded, and every run of HMAC_START, ABSORBs of a message and FINAL
(42_hmac.md R93, R99). -/

namespace Sys2Proof.Machine

/-- R93: a key of at most 64 bytes is its own key block, filled with zeros. -/
theorem keyBlock_of_le (p : Params) {k : List Byte} (h : k.length ≤ 64) : keyBlock p k = blockOf k :=
  if_neg (Nat.not_lt.2 h)

/-- R93: a longer key's block is its digest, filled with zeros. -/
theorem keyBlock_of_gt (p : Params) {k : List Byte} (h : 64 < k.length) : keyBlock p k = blockOf (hashBytes p k) :=
  if_pos h

/-! ## What HMAC_START leaves for the ABSORBs (R97) -/

@[simp] theorem complete_absorber (s : State) : (complete s).absorber = s.absorber := rfl

/-- R97: the absorber is the one that has absorbed `ipad_block` from `IV` and an empty buffer. -/
theorem hmacStartEffect_absorber (s : State) :
    (hmacStartEffect s).absorber = feed s.params.k ⟨s.params.iv, zeroBlock, 0⟩ (ipadBlock s.key).toList := by
  rw [hmacStartEffect_eq, feed_block]
  rfl

@[simp] theorem hmacStartEffect_len (s : State) : (hmacStartEffect s).len = 64 := by rw [hmacStartEffect_eq]

@[simp] theorem hmacStartEffect_estate (s : State) : (hmacStartEffect s).estate = .absorbing := by
  rw [hmacStartEffect_eq]

@[simp] theorem hmacStartEffect_mode (s : State) : (hmacStartEffect s).mode = .hmac := by rw [hmacStartEffect_eq]

@[simp] theorem hmacStartEffect_key (s : State) : (hmacStartEffect s).key = s.key := by rw [hmacStartEffect_eq]

@[simp] theorem hmacStartEffect_params (s : State) : (hmacStartEffect s).params = s.params := by
  rw [hmacStartEffect_eq]

/-! ## Runs (R99) -/

theorem hmacRun_exists {s : State} (hkey : s.keyValid = true) (m : List Byte) : ∃ t, HmacRun s m t := by
  obtain ⟨s₂, hrun⟩ := absorbRun_exists m (s := complete (hmacStartEffect s)) (by simp)
  obtain ⟨t, hfinal⟩ := exec_is_next .final s₂
  exact ⟨t, _, s₂, s₂, exec_hmacStart_of_key hkey, hrun, ⟨rfl, rfl, rfl, rfl, rfl, rfl, rfl, rfl, rfl⟩, hfinal⟩

/-- R90, R97: when FINAL is given, the engine has absorbed `ipad_block` and the whole message from `IV` and an empty buffer. -/
theorem hmacRun_before_final {s t : State} {m : List Byte} (hkey : s.keyValid = true) (h : HmacRun s m t) :
    ∃ u : State, t = complete (hmacFinish u) ∧
      u.absorber = feed s.params.k ⟨s.params.iv, zeroBlock, 0⟩ ((ipadBlock s.key).toList ++ m) ∧
      u.len = BitVec.ofNat 64 ((ipadBlock s.key).toList ++ m).length ∧
      u.mode = .hmac ∧ u.key = s.key ∧ u.params = s.params ∧ u.estate ≠ .finalized := by
  obtain ⟨s₁, s₂, u, hstart, hrun, hsame, hfinal⟩ := h
  rw [exec_hmacStart_of_key hkey] at hstart
  cases hstart
  obtain ⟨habs, hlen, hmode, hkept, hparams, hopen⟩ := engine_after_absorbRun hrun (by simp) hsame
  simp only [complete_len, complete_mode, complete_key, complete_params, complete_absorber, hmacStartEffect_absorber,
    hmacStartEffect_len, hmacStartEffect_mode, hmacStartEffect_key, hmacStartEffect_params]
    at habs hlen hmode hkept hparams
  rw [exec_final_of_hmac hmode hopen] at hfinal
  obtain rfl := Host.Outcome.next.inj hfinal
  refine ⟨u, rfl, ?_, ?_, hmode, hkept, hparams, ((estate_open_iff _).1 hopen).2⟩
  · rw [feed_append, habs]
  · rw [List.length_append, Vector.length_toList, BitVec.ofNat_add]
    exact hlen

end Sys2Proof.Machine

section
open Sys2Proof Sys2Proof.Machine

/-- Settles O45: a run exists (`hmacRun_exists`), and in every run FINAL finds `ipad_block` and the message absorbed in one piece
(`hmacRun_before_final`), so the inner finish compresses the blocks that `H` does (`compressAll_of_absorbed`) and the outer hash is
`hmacFinish_of_ne`'s. -/
theorem everySplitHmacsToTheNestedHash : Obligations.EverySplitHmacsToTheNestedHash := by
  intro s key m hkey hblock
  refine ⟨hmacRun_exists hkey m, fun t h => ?_⟩
  obtain ⟨u, rfl, habs, hlen, hmode, hkept, hparams, hnf⟩ := hmacRun_before_final hkey h
  rw [hmacFinish_of_ne hnf, compressAll_of_absorbed hparams habs hlen, hkept, hparams]
  refine ⟨?_, rfl, hmode, rfl, rfl⟩
  rw [hmacBytes, ← hblock]
  rfl

/-- Settles O46: KEY_SET takes the key from DIN, which is its own key block (`keyBlock_of_le`); after a run that hashes a longer key
the digest is the key's (O44), and MLEN says that it is long, so KEY_FROM_DIGEST loads it (`keyBlock_of_gt`). -/
theorem loadedKeyBlockIsTheKeysBlock : Obligations.LoadedKeyBlockIsTheKeysBlock := by
  intro s key
  constructor
  · intro hpos hshort hdin hfree
    refine ⟨_, exec_keySet_of_pass hshort (by omega) hfree, ?_, rfl⟩
    rw [keyBlock_of_le _ hshort]
    exact congrArg blockOf hdin
  · intro hlong hfits u hrun
    obtain ⟨-, hruns⟩ := everySplitHashesToTheDigestFunction s key
    obtain ⟨-, hdigest, he, hm, -, hmlen, -⟩ := hruns u hrun
    have hmlenNat : u.mlen.toNat = key.length := by rw [hmlen, BitVec.toNat_ofNat, Nat.mod_eq_of_lt hfits]
    refine ⟨_, exec_keyFromDigest_of_pass he hm (hmlenNat ▸ hlong), ?_, rfl⟩
    rw [keyBlock_of_gt _ hlong]
    exact congrArg blockOf hdigest

end

/-! PROOFS. CT_EQ: the state it leaves, its errors, and the comparator's laws (43_compare.md R102, R103, R105; 60_exceptions.md
R112, R113). -/

namespace Sys2Proof.Machine

/-- R102, R103: a CT_EQ that passes its checks writes the comparator's answer and CMP_VALID and completes. -/
theorem exec_ctEq_of_pass {la lb : Nat} {b : OperandB} {s : State} (hla : la ≤ 64) (hlb : lb ≤ 64)
    (hdigest : b = .digest → lb ≤ 32) (hfinal : b = .digest → s.estate = .finalized) :
    exec (.ctEq la lb b) s = .next (complete { s with
      cmpEq := decide (la = lb ∧ ∀ k : Fin 64, k.val < la → s.din[k] = (compareB b s)[k]), cmpValid := true }) := by
  have hpass : firstError (checksOf (.ctEq la lb b) s) = none := ctEqChecks_pass.2 ⟨⟨hla, hlb⟩, hdigest, hfinal⟩
  rw [exec_of_none hpass, effectOf, ctEqEffect, ctEqCore_eq, compareA]

/-- R103, R113: a length out of range is reported first, whatever the operand and ESTATE. -/
theorem exec_ctEq_of_length {la lb : Nat} {b : OperandB} (s : State)
    (h : 64 < la ∨ 64 < lb ∨ (b = .digest ∧ 32 < lb)) :
    exec (.ctEq la lb b) s = .next (raiseCompareError .invalidLength s) := by
  apply exec_of_some (i := .ctEq la lb b)
  simp only [checksOf, ctEqChecks, ctMax, digestLen, firstError_cons]
  by_cases hmax : 64 < la ∨ 64 < lb
  · simp [hmax]
  · obtain ⟨hb, hlb⟩ : b = .digest ∧ 32 < lb := by tauto
    simp [hmax, hb, hlb]

/-- R103: with the lengths in range, a digest operand needs a finished digest. -/
theorem exec_ctEq_of_no_digest {la lb : Nat} {s : State} (hla : la ≤ 64) (hlb : lb ≤ 32) (he : s.estate ≠ .finalized) :
    exec (.ctEq la lb .digest) s = .next (raiseCompareError .invalidConfig s) := by
  have hmax : ¬ (64 < la ∨ 64 < lb) := by omega
  apply exec_of_some (i := .ctEq la lb .digest)
  simp [checksOf, ctEqChecks, ctMax, digestLen, hmax, Nat.not_lt.2 hlb, he]

end Sys2Proof.Machine

section
open Sys2Proof Sys2Proof.Machine

/-- Settles O35: CT_EQ passes its checks for either operand (`exec_ctEq_of_pass`), and the digest operand's bytes are
`digest_bytes() ‖ 0^32`'s (`blockOf_getElem`). -/
theorem ctEqComparesTheOperands : Obligations.CtEqComparesTheOperands := by
  intro la lb s hla hlb
  constructor
  · exact exec_ctEq_of_pass hla hlb nofun nofun
  · intro hshort hfinal
    have hbyte (k : Fin 64) : (compareB .digest s)[k] = (digestBytes s.words).getD k.val 0 :=
      blockOf_getElem _ k.val k.isLt
    rw [exec_ctEq_of_pass hla hlb (fun _ => hshort) (fun _ => hfinal)]
    simp only [hbyte]
    rfl

/-- Settles O37: each law is read off the comparison as a proposition (`ctEqCore_eq`). -/
theorem comparatorLaws : Obligations.ComparatorLaws := by
  intro a b la lb _ _
  refine ⟨?equal, fun k hk hne => ?differ, fun hne => ?lengths⟩ <;> rw [ctEqCore_eq]
  case equal => exact decide_eq_true ⟨rfl, fun _ _ => rfl⟩
  case differ => exact decide_eq_false fun ⟨_, hbytes⟩ => hne (hbytes k hk)
  case lengths => exact decide_eq_false fun ⟨hlen, _⟩ => hne hlen

/-- Settles O36: the lengths come first (`exec_ctEq_of_length`), then the digest (`exec_ctEq_of_no_digest`). -/
theorem ctEqErrorsClearTheResult : Obligations.CtEqErrorsClearTheResult := by
  intro la lb b s
  constructor
  · exact exec_ctEq_of_length s
  · rintro hla hlb rfl he
    exact exec_ctEq_of_no_digest hla hlb he

end

/-! PROOFS. NOP and ZEROIZE: the whole state each leaves, and what an erased block shows the host (44_lifecycle.md R107..R109;
10_state.md R30..R36). -/

namespace Sys2Proof.Machine

/-- R109: NOP has no checks and no effect, so it only completes. -/
theorem exec_nop (s : State) : exec .nop s = .next (complete s) := exec_of_none (i := .nop) rfl

/-- R107: ZEROIZE has no checks, so it completes in every state. -/
theorem exec_zeroize (s : State) : exec .zeroize s = .next (complete (zeroizeEffect s)) := exec_of_none (i := .zeroize) rfl

/-! ## What an erased block shows -/

/-- R35: each register of a window of zeros reads 0. -/
theorem laneWord_zeroBlock (m : Fin 16) : laneWord zeroBlock m = 0 := by
  simp only [laneWord, zeroBlock, Vector.getElem_replicate]
  rfl

/-- R34, R35, R36: with the lengths and the windows zero and no finished digest, only STATUS and ERR can read nonzero. -/
theorem readReg_of_erased {s : State} (hestate : s.estate ≠ .finalized) (hlen : s.len = 0) (hmlen : s.mlen = 0)
    (hdin : s.din = zeroBlock) (hcmpb : s.cmpb = zeroBlock) {r : Reg} (herr : r ≠ .err) (hstatus : r ≠ .status) :
    readReg s r = 0 := by
  cases r with
  | cmd | reserved => rfl
  | err => exact absurd rfl herr
  | status => exact absurd rfl hstatus
  | lenLo | lenHi => simp [readReg, hiddenWhileBusy, hlen]
  | mlenLo | mlenHi => simp [readReg, hiddenWhileBusy, hmlen]
  | din m => exact (congrArg (laneWord · m) hdin).trans (laneWord_zeroBlock m)
  | cmpb m => exact (congrArg (laneWord · m) hcmpb).trans (laneWord_zeroBlock m)
  | digest m => exact if_neg fun hread => hestate ((digestReadable_iff s).1 hread).2

/-- R32: in a zeroized block STATUS shows at most ERR_ANY. -/
theorem statusWord_zeroize (s : State) :
    statusWord (complete (zeroizeEffect s)) = if s.err = 0 then 0 else 0x80 := by
  split
  · next herr =>
    have hany : errAny (complete (zeroizeEffect s)) = false := bne_eq_false_iff_eq.2 herr
    simp [statusWord, hany, EState.code, Mode.code]
  · next herr =>
    have hany : errAny (complete (zeroizeEffect s)) = true := bne_iff_ne.2 herr
    simp [statusWord, hany, EState.code, Mode.code]

end Sys2Proof.Machine

section
open Sys2Proof Sys2Proof.Machine

/-- Settles O18: NOP has no checks and no effect. -/
theorem nopOnlyCompletes : Obligations.NopOnlyCompletes := exec_nop

/-- Settles O20: ZEROIZE has no checks, and its effect is R107's. -/
theorem zeroizeErasesEverythingButErr : Obligations.ZeroizeErasesEverythingButErr := exec_zeroize

/-- Settles O21: the state ZEROIZE leaves is erased (`readReg_of_erased`), its STATUS has at most ERR_ANY
(`statusWord_zeroize`), and it keeps ERR. -/
theorem nothingIsReadableAfterZeroize : Obligations.NothingIsReadableAfterZeroize := by
  intro s
  refine ⟨complete (zeroizeEffect s), exec_zeroize s, fun r herr hstatus => ?_, statusWord_zeroize s, rfl⟩
  exact readReg_of_erased (by simp) rfl rfl rfl rfl herr hstatus

end

/-! PROOFS. How a command word ends: the error reports (60_exceptions.md R112) and the codes each opcode can report (R111, R114). -/

namespace Sys2Proof.Machine

/-! ## The end of a command word -/

/-- A failed word's report (R112): an error of CT_EQ when its OP is CT_EQ's, legal or not (log entry 8). -/
def raiseOfWord (v : Word32) (c : ErrCode) (s : State) : State :=
  if cmdOp v = 0x20 then raiseCompareError c s else raiseError c s

theorem illegalCommand_eq_raiseOfWord (v : Word32) (s : State) : illegalCommand v s = raiseOfWord v .illegalCmd s := rfl

theorem raiseOf_eq_raiseOfWord {v : Word32} {i : Instr} (hop : cmdOp v = i.opcode) (c : ErrCode) (s : State) :
    raiseOf i c s = raiseOfWord v c s := by
  simp only [raiseOf, raiseOfWord, hop, isCtEq_iff_opcode]

/-- R112: a failed word leaves the state from before it, but for the reports and a CT_EQ's comparison flags. -/
theorem raiseOfWord_eq (v : Word32) (c : ErrCode) (s : State) :
    raiseOfWord v c s = { s with
      err := s.err ||| c.errBit
      lastErr := c.code
      busy := false
      cmpEq := if cmdOp v = 0x20 then false else s.cmpEq
      cmpValid := if cmdOp v = 0x20 then false else s.cmpValid } := by
  by_cases hop : cmdOp v = 0x20
  · simp only [raiseOfWord, if_pos hop, raiseCompareError, raiseError]
  · simp only [raiseOfWord, if_neg hop, raiseError]

/-- Everything a command word can do, by how it ends: the effect of the command its OP names completes, or one error is reported,
which is ILLEGAL_CMD or that command's first failing check. -/
theorem performWord_ends {v : Word32} {s t : State} (h : performWord v s = .next t) :
    (∃ i, cmdOp v = i.opcode ∧ t = complete (effectOf i s)) ∨
      ∃ c, t = raiseOfWord v c s ∧
        (c = .illegalCmd ∨ ∃ i, cmdOp v = i.opcode ∧ firstError (checksOf i s) = some c) := by
  rcases performWord_cases v s with ⟨i, hd, hp⟩ | ⟨e, -, hp⟩ <;> rw [hp] at h
  · obtain ⟨-, hop, -, -⟩ := decode_ok hd
    rcases exec_cases h with ⟨-, rfl⟩ | ⟨c, hc, rfl⟩
    · exact .inl ⟨i, hop, rfl⟩
    · exact .inr ⟨c, raiseOf_eq_raiseOfWord hop c s, .inr ⟨i, hop, hc⟩⟩
  · cases h
    exact .inr ⟨.illegalCmd, illegalCommand_eq_raiseOfWord v s, .inl rfl⟩

/-- R128: with BUSY = 1 a write to CMD, DIN or CMPB is dropped. -/
theorem writeReg_of_busy {s : State} (h : s.busy = true) {r : Reg} (hr : r = .cmd ∨ (∃ m, r = .din m) ∨ ∃ m, r = .cmpb m)
    (v : Word32) : writeReg s r v = busyViolation s := by
  rcases hr with rfl | ⟨m, rfl⟩ | ⟨m, rfl⟩ <;> exact if_pos h

/-! ## The codes a command can report (R114) -/

/-- The errors that the table of R114 gives an opcode besides ILLEGAL_CMD, which stands in every row. -/
def reportsOf : BitVec 8 → List ErrCode
  | 0x02 => [.invalidLength, .notInitialized]
  | 0x03 => [.notInitialized, .alreadyFinalized]
  | 0x10 => [.invalidLength, .invalidConfig]
  | 0x11 => [.invalidConfig]
  | 0x12 => [.keyNotValid]
  | 0x20 => [.invalidLength, .invalidConfig]
  | _ => []

/-- The checks of a command name the errors of its opcode's row, and no other. -/
theorem checksOf_reports (i : Instr) (s : State) : (checksOf i s).map (·.2) ⊆ reportsOf i.opcode := by
  cases i with
  | nop | init | zeroize => exact List.nil_subset _
  | absorb la | final | hmacStart => exact List.Subset.refl _
  | keySet la => simp [checksOf, keySetChecks, reportsOf, Instr.opcode]
  | keyFromDigest => simp [checksOf, keyFromDigestChecks, reportsOf, Instr.opcode]
  | ctEq la lb b => simp [checksOf, ctEqChecks, reportsOf, Instr.opcode]

theorem firstError_checksOf_mem {i : Instr} {s : State} {c : ErrCode} (h : firstError (checksOf i s) = some c) :
    c ∈ reportsOf i.opcode :=
  checksOf_reports i s (List.mem_map_of_mem (f := (·.2)) (firstError_mem h))

theorem raiseOfWord_lastErr (v : Word32) (c : ErrCode) (s : State) : (raiseOfWord v c s).lastErr = c.code := by
  rw [raiseOfWord_eq]

/-- R114: a command word leaves 0, ILLEGAL_CMD's code 5 or a code of its opcode's row in LAST_ERR. -/
theorem performWord_lastErr_mem {v : Word32} {s t : State} (h : performWord v s = .next t) {op : BitVec 8}
    (hop : cmdOp v = op) : t.lastErr ∈ 0 :: 5 :: (reportsOf op).map ErrCode.code := by
  subst hop
  rcases performWord_ends h with ⟨i, -, rfl⟩ | ⟨c, rfl, rfl | ⟨i, hop, hc⟩⟩
  · exact List.mem_cons_self
  · rw [raiseOfWord_lastErr]
    exact List.mem_cons_of_mem _ List.mem_cons_self
  · rw [raiseOfWord_lastErr, hop]
    exact List.mem_cons_of_mem _ (List.mem_cons_of_mem _ (List.mem_map_of_mem (firstError_checksOf_mem hc)))

/-- R64, R114: an opcode outside the table names no command, so its word reports ILLEGAL_CMD. -/
theorem performWord_lastErr_of_unassigned {v : Word32} {s t : State} (h : performWord v s = .next t)
    (hop : cmdOp v ∉ opcodeTable.map (·.opcode)) : t.lastErr = 5 := by
  have hnone : ∀ i : Instr, cmdOp v ≠ i.opcode := fun i hi => hop (hi ▸ i.opcode_mem)
  rcases performWord_ends h with ⟨i, hi, -⟩ | ⟨c, rfl, rfl | ⟨i, hi, -⟩⟩
  · exact absurd hi (hnone i)
  · exact raiseOfWord_lastErr v .illegalCmd s
  · exact absurd hi (hnone i)

end Sys2Proof.Machine

section
open Sys2Proof Sys2Proof.Machine

/-- Settles O11: a word completes an effect, which keeps ERR (`effectOf_frame`), or reports one error (`performWord_ends`), whose
whole state is `raiseOfWord_eq`; a write with BUSY = 1 is dropped (`writeReg_of_busy`). -/
theorem errorsChangeOnlyTheReports : Obligations.ErrorsChangeOnlyTheReports := by
  refine ⟨fun v s t h => ?_, fun v s r hbusy hr => writeReg_of_busy hbusy hr v⟩
  rcases performWord_ends h with ⟨i, -, rfl⟩ | ⟨c, rfl, -⟩
  · obtain ⟨herr, -, -, -, -, -, -⟩ := effectOf_frame i s
    exact ⟨rfl, fun _ => herr, fun hne => absurd rfl hne⟩
  · rw [raiseOfWord_eq]
    exact ⟨rfl, fun h0 => absurd h0 c.code_ne_zero, fun _ => rfl⟩

/-- Settles O12: each row of the table is `reportsOf` its opcode (`performWord_lastErr_mem`), and an opcode outside the table is
`performWord_lastErr_of_unassigned`. -/
theorem commandsReportOnlyTheirCodes : Obligations.CommandsReportOnlyTheirCodes := by
  intro v s t h
  refine ⟨fun hop => ?_, performWord_lastErr_mem h, performWord_lastErr_mem h, performWord_lastErr_mem h,
    performWord_lastErr_mem h, performWord_lastErr_mem h, performWord_lastErr_mem h, performWord_lastErr_of_unassigned h⟩
  simp only [List.mem_cons, List.not_mem_nil, or_false] at hop
  rcases hop with hop | hop | hop <;> exact performWord_lastErr_mem h hop

end

/-! PROOFS. Progress of a pending command, writes that are dropped or ignored, and reset (60_exceptions.md R116;
70_reset_and_hazards.md R124, R128, R130). -/

namespace Sys2Proof.Machine

/-! ## The engine completes a pending command -/

/-- R65: however a command word ends, BUSY is 0. -/
theorem performWord_busy {v : Word32} {s t : State} (h : performWord v s = .next t) : t.busy = false := by
  rcases performWord_ends h with ⟨i, -, rfl⟩ | ⟨c, rfl, -⟩
  · rfl
  · rw [raiseOfWord_eq]

/-- R116, R130: with BUSY = 1 the engine answers a next state, whatever the latched word. -/
theorem engineStep_completes {s : State} (hbusy : s.busy = true) : ∃ t, engineStep s = .next t ∧ t.busy = false := by
  obtain ⟨t, ht⟩ := performWord_is_next s.cmdLatch s
  exact ⟨t, (engineStep_of_busy hbusy).trans ht, performWord_busy ht⟩

theorem step_completes_of_engineActs {s : State} (h : s.engineActs) : ∃ t, step s = .next t ∧ t.busy = false := by
  obtain ⟨hbusy, hturns | ⟨rest, hturns⟩⟩ := h
  · rw [step_of_none hturns]
    exact engineStep_completes hbusy
  · rw [step_of_engine hturns]
    exact engineStep_completes (s := s.afterTurn rest) hbusy

/-! ## Host accesses while a command is pending -/

theorem performAccess_busy_frame {s : State} (hbusy : s.busy = true) (off : Nat) (op : BusOp) :
    (performAccess off op s).busy = true ∧ (performAccess off op s).turns = s.turns := by
  rcases performAccess_cases off op s with h | ⟨v, -, h⟩ <;> rw [h]
  · exact ⟨hbusy, rfl⟩
  · obtain ⟨hstays, -⟩ := writeReg_busy_frame hbusy (regAt off) v
    obtain ⟨-, -, -, -, -, -, -, -, -, -, -, -, -, hturns, -⟩ := writeReg_frame s (regAt off) v
    exact ⟨hstays, hturns⟩

/-- R43, R46, R128: an access to the window is answered, and the command stays pending. -/
theorem busAccess_of_busy {s : State} {a : BusAccess} (hbusy : s.busy = true) (hw : inWindow s.params a.addr = true) :
    ∃ t, busAccess a s = .next t ∧ t.busy = true ∧ t.turns = s.turns := by
  cases hl : accessLegal a with
  | false => exact ⟨_, busAccess_eq_next_iff.2 ⟨hw, .inl ⟨hl, rfl⟩⟩, hbusy, rfl⟩
  | true => exact ⟨_, busAccess_eq_next_iff.2 ⟨hw, .inr ⟨hl, rfl⟩⟩, performAccess_busy_frame hbusy _ _⟩

/-- A host's turn while a command is pending leaves it pending, with one turn less to come, all of them in the window. -/
theorem step_of_busy_host {s : State} {a : BusAccess} {rest : List Turn} (hbusy : s.busy = true)
    (hin : s.accessesInWindow) (hturns : s.turns = .host a :: rest) :
    ∃ t, step s = .next t ∧ t.busy = true ∧ t.turns = rest ∧ t.accessesInWindow := by
  have hw : inWindow s.params a.addr = true := hin a (hturns ▸ List.mem_cons_self)
  obtain ⟨t, ht, htbusy, htturns⟩ := busAccess_of_busy (s := s.afterTurn rest) hbusy hw
  have hstep : step s = .next t := (step_of_host hturns).trans ht
  refine ⟨t, hstep, htbusy, htturns, fun b hb => ?_⟩
  rw [step_params hstep]
  rw [htturns, afterTurn_turns] at hb
  exact hin b (hturns ▸ List.mem_cons_of_mem _ hb)

/-! ## Runs -/

theorem run_succ_of_step {M : Host.Core} {s t : M.State} (h : M.step s = .next t) (k : Nat) :
    M.run (k + 1) s = M.run k t := by
  simp only [Host.Core.run, h]

/-- R130: each host access takes one turn away, and the first turn of another agent, or the engine when no turn is left, ends
the pending command. -/
theorem busy_ends_within_turns {turns : List Turn} {s : State} (hturns : s.turns = turns) (hbusy : s.busy = true)
    (hin : s.accessesInWindow) : ∃ k t, k ≤ turns.length + 1 ∧ core.run k s = .next t ∧ t.busy = false := by
  have hone {n : Nat} {s t : State} (hstep : step s = .next t) (ht : t.busy = false) :
      ∃ k t, k ≤ n + 1 ∧ core.run k s = .next t ∧ t.busy = false :=
    ⟨1, t, Nat.le_add_left 1 n, run_succ_of_step (M := core) hstep 0, ht⟩
  induction turns generalizing s with
  | nil =>
    obtain ⟨t, hstep, ht⟩ := step_completes_of_engineActs ⟨hbusy, .inl hturns⟩
    exact hone hstep ht
  | cons turn rest ih =>
    cases turn with
    | engine =>
      obtain ⟨t, hstep, ht⟩ := step_completes_of_engineActs ⟨hbusy, .inr ⟨rest, hturns⟩⟩
      exact hone hstep ht
    | reset => exact hone (step_of_reset hturns) rfl
    | host a =>
      obtain ⟨u, hstep, hubusy, huturns, huin⟩ := step_of_busy_host hbusy hin hturns
      obtain ⟨k, t, hk, hrun, ht⟩ := ih huturns hubusy huin
      exact ⟨k + 1, t, Nat.succ_le_succ hk, (run_succ_of_step (M := core) hstep k).trans hrun, ht⟩

/-! ## Dropped and ignored writes -/

theorem regAt_cmd_iff (off : Nat) : regAt off = .cmd ↔ off = 0 := by
  unfold regAt
  split_ifs <;> simp <;> omega

theorem regAt_err_iff (off : Nat) : regAt off = .err ↔ off = 8 := by
  unfold regAt
  split_ifs <;> simp <;> omega

/-- R30: CMD, DIN and CMPB, the registers whose writes BUSY = 1 drops, lie at offset 0 and from 0x40 to 0xBF. -/
theorem regAt_dropped_iff {off : Nat} (halign : off % 4 = 0) :
    (regAt off = .cmd ∨ (∃ m, regAt off = .din m) ∨ ∃ m, regAt off = .cmpb m) ↔
      off = 0 ∨ (0x40 ≤ off ∧ off < 0xC0) := by
  constructor
  · rintro (h | ⟨m, h⟩ | ⟨m, h⟩)
    · exact .inl ((regAt_cmd_iff off).1 h)
    · exact .inr (regAt_din_range h)
    · exact .inr (regAt_cmpb_range h)
  · rintro (rfl | ⟨hlow, hhigh⟩)
    · exact .inl rfl
    · by_cases hdin : off < 0x80
      · obtain ⟨m, rfl⟩ : ∃ m : Fin 16, off = 0x40 + 4 * m.val := ⟨⟨(off - 0x40) / 4, by omega⟩, by dsimp only; omega⟩
        exact .inr (.inl ⟨m, regAt_din m⟩)
      · obtain ⟨m, rfl⟩ : ∃ m : Fin 16, off = 0x80 + 4 * m.val := ⟨⟨(off - 0x80) / 4, by omega⟩, by dsimp only; omega⟩
        exact .inr (.inr ⟨m, regAt_cmpb m⟩)

/-- R50: a write to any register but CMD, DIN, CMPB and ERR is ignored, whatever BUSY is. -/
theorem writeReg_ignored {r : Reg} (hdropped : ¬ (r = .cmd ∨ (∃ m, r = .din m) ∨ ∃ m, r = .cmpb m)) (herr : r ≠ .err)
    (s : State) (v : Word32) : writeReg s r v = s := by
  cases r with
  | cmd => exact absurd (.inl rfl) hdropped
  | din m => exact absurd (.inr (.inl ⟨m, rfl⟩)) hdropped
  | cmpb m => exact absurd (.inr (.inr ⟨m, rfl⟩)) hdropped
  | err => exact absurd rfl herr
  | status | lenLo | lenHi | mlenLo | mlenHi | digest m | reserved => rfl

/-- R128: while BUSY = 1 a write changes at most ERR. -/
theorem writeReg_regAt_of_busy {s : State} (hbusy : s.busy = true) {off : Nat} (halign : off % 4 = 0) (v : Word32) :
    writeReg s (regAt off) v = { s with
      err := if off = 0 ∨ (0x40 ≤ off ∧ off < 0xC0) then s.err ||| 0b0100000
        else if off = 8 then s.err &&& ~~~(v.extractLsb' 0 7) else s.err } := by
  split_ifs with hdropped herr
  · exact writeReg_of_busy hbusy ((regAt_dropped_iff halign).2 hdropped) v
  · rw [(regAt_err_iff off).2 herr]
    rfl
  · exact writeReg_ignored (mt (regAt_dropped_iff halign).1 hdropped) (mt (regAt_err_iff off).1 herr) s v

/-! ## What a reset block shows -/

/-- R32, R33, R124: after the reset event every register reads 0. -/
theorem readReg_resetBlock (s : State) (r : Reg) : readReg (resetBlock s) r = 0 := by
  by_cases herr : r = .err
  · subst herr; rfl
  by_cases hstatus : r = .status
  · subst hstatus; simp [readReg, statusWord, errAny, EState.code, Mode.code]
  exact readReg_of_erased (by simp) rfl rfl rfl rfl herr hstatus

end Sys2Proof.Machine

section
open Sys2Proof Sys2Proof.Machine

/-- Settles O10: induction on the turns to come (`busy_ends_within_turns`). -/
theorem pendingCommandEndsWithinTheTurns : Obligations.PendingCommandEndsWithinTheTurns :=
  fun _ hbusy hin => busy_ends_within_turns rfl hbusy hin

/-- Settles O51: the write reaches the register at its offset; with BUSY = 1 it changes at most ERR
(`writeReg_regAt_of_busy`), and with BUSY = 0 the registers named ignore it (`writeReg_ignored`). -/
theorem droppedAndIgnoredWrites : Obligations.DroppedAndIgnoredWrites := by
  intro s off v rest hoff halign h
  rw [step_of_legal_write h hoff halign]
  refine ⟨fun hbusy => ?_, fun _ hcmd herr hwindow => ?_⟩
  · rw [writeReg_regAt_of_busy (s := s.afterTurn rest) hbusy halign]
    rfl
  · have hdropped : ¬ (off = 0 ∨ (0x40 ≤ off ∧ off < 0xC0)) := by omega
    rw [writeReg_ignored (mt (regAt_dropped_iff halign).1 hdropped) (mt (regAt_err_iff off).1 herr)]
    rfl

/-- Settles O9: the engine performs the latched word, and every word ends (`step_completes_of_engineActs`). -/
theorem engineTurnCompletesThePendingCommand : Obligations.EngineTurnCompletesThePendingCommand :=
  fun _ hbusy hturns => step_completes_of_engineActs ⟨hbusy, hturns⟩

/-- Settles O58: the reset turn is the reset event (`step_of_reset`), whose table is `resetBlock`, and every register of a reset
block reads 0 (`readReg_resetBlock`). -/
theorem resetErasesTheBlock : Obligations.ResetErasesTheBlock :=
  fun s rest h => ⟨resetBlock (s.afterTurn rest), step_of_reset h, rfl, readReg_resetBlock _⟩

end
